-- ==== Sys2Proof/Word.lean ====
section
/-! DEFINITION. The word types of the block and the integer readings of 00_scope.md R9. -/

namespace Sys2Proof

/-- A 32-bit memory word or register (00_scope.md R6). -/
abbrev Word := BitVec 32

/-- One byte of memory (20_memory.md R50). -/
abbrev Byte := BitVec 8

/-- A 16-bit address: the width of IP and of an effective address (00_scope.md R6). -/
abbrev Addr := BitVec 16

/-- The `Address1` field, 12 bits (30_encoding.md R80). -/
abbrev Addr1 := BitVec 12

/-- The `Address2` field, 10 bits (30_encoding.md R80). -/
abbrev Addr2 := BitVec 10

/-- A 3-bit register index (10_state.md R22). -/
abbrev RegIndex := BitVec 3

/-- `u32(w)`: the unsigned reading (00_scope.md R9). -/
abbrev u32 (w : Word) : Nat := w.toNat

/-- `s32(w)`: the signed two's-complement reading (00_scope.md R9). -/
abbrev s32 (w : Word) : Int := w.toInt

/-- `trunc32(n)`: the word congruent to `n` modulo 2^32 (00_scope.md R9). -/
abbrev trunc32 (n : Int) : Word := BitVec.ofInt 32 n

/-- `s16(v)`: the signed two's-complement reading of a 16-bit value (00_scope.md R9). -/
abbrev s16 (v : BitVec 16) : Int := v.toInt

end Sys2Proof
end

