-- ==== Sys2Proof/Syntax.lean ====
section
/-! DEFINITION. The instructions: one constructor per row of spec/opcode_table.json, each with the three fields
`(BB, A1, A2)` that 40_fetch_decode_dispatch.md R113 hands to its rule. -/

namespace Sys2Proof

/-- The 2-bit addressing-mode selector `BB` (30_encoding.md R80, R90): bit 1 is the register-mode flag, bit 0 the
displacement flag. -/
inductive Mode where
  /-- `BB = 00b`: absolute. -/
  | absolute
  /-- `BB = 01b`: displacement using R0. -/
  | dispR0
  /-- `BB = 10b`: register-indirect. -/
  | indirect
  /-- `BB = 11b`: register-indirect with displacement. -/
  | indirectDisp
  deriving DecidableEq, Repr

/-- An instruction. Every constructor keeps the whole of `BB`, `A1` and `A2`: the fields its class ignores
(30_encoding.md R84, R85) are kept as syntax and read by no meaning. -/
inductive Instr where
  /-- STOP, opcode 0x00, class N (R120). -/
  | stop (bb : Mode) (a1 : Addr1) (a2 : Addr2)
  /-- IADD, opcode 0x01, class M2 (R140). -/
  | iadd (bb : Mode) (a1 : Addr1) (a2 : Addr2)
  /-- ISUB, opcode 0x02, class M2 (R141). -/
  | isub (bb : Mode) (a1 : Addr1) (a2 : Addr2)
  /-- IMUL, opcode 0x03, class M2 (R142). -/
  | imul (bb : Mode) (a1 : Addr1) (a2 : Addr2)
  /-- IDIV, opcode 0x04, class M2 (R143). -/
  | idiv (bb : Mode) (a1 : Addr1) (a2 : Addr2)
  /-- IIN, opcode 0x11, class M1 (R181). -/
  | iin (bb : Mode) (a1 : Addr1) (a2 : Addr2)
  /-- IOUT, opcode 0x12, class M1 (R183). -/
  | iout (bb : Mode) (a1 : Addr1) (a2 : Addr2)
  /-- ADDR, opcode 0x14, class RR (R222). -/
  | addr (bb : Mode) (a1 : Addr1) (a2 : Addr2)
  /-- SUBR, opcode 0x15, class RR (R223). -/
  | subr (bb : Mode) (a1 : Addr1) (a2 : Addr2)
  /-- MOVR, opcode 0x16, class RR (R224). -/
  | movr (bb : Mode) (a1 : Addr1) (a2 : Addr2)
  /-- RADD, opcode 0x21, class M2 (R161). -/
  | radd (bb : Mode) (a1 : Addr1) (a2 : Addr2)
  /-- RSUB, opcode 0x22, class M2 (R162). -/
  | rsub (bb : Mode) (a1 : Addr1) (a2 : Addr2)
  /-- RMUL, opcode 0x23, class M2 (R163). -/
  | rmul (bb : Mode) (a1 : Addr1) (a2 : Addr2)
  /-- RDIV, opcode 0x24, class M2 (R164). -/
  | rdiv (bb : Mode) (a1 : Addr1) (a2 : Addr2)
  /-- RIN, opcode 0x31, class M1 (R184). -/
  | rin (bb : Mode) (a1 : Addr1) (a2 : Addr2)
  /-- ROUT, opcode 0x32, class M1 (R185). -/
  | rout (bb : Mode) (a1 : Addr1) (a2 : Addr2)
  /-- JZ, opcode 0x41, class J (R201). -/
  | jz (bb : Mode) (a1 : Addr1) (a2 : Addr2)
  /-- JG, opcode 0x42, class J (R202). -/
  | jg (bb : Mode) (a1 : Addr1) (a2 : Addr2)
  /-- JL, opcode 0x43, class J (R203). -/
  | jl (bb : Mode) (a1 : Addr1) (a2 : Addr2)
  /-- LOAD, opcode 0x44, class RM (R220). -/
  | load (bb : Mode) (a1 : Addr1) (a2 : Addr2)
  /-- STORE, opcode 0x45, class MR (R221). -/
  | store (bb : Mode) (a1 : Addr1) (a2 : Addr2)
  deriving DecidableEq, Repr

end Sys2Proof
end

