-- ==== Sys2Proof/WellFormed.lean ====
section
/-! DEFINITION. Static well-formedness: an instruction names only registers that exist. -/

namespace Sys2Proof

/-- A register index names R0 or R1 (10_state.md R22: indices 2..7 name no register). -/
def indexExists (i : RegIndex) : Bool := decide (i.toNat < 2)

/-- The register that an operand in mode `bb` resolves through `A1[2:0]` exists; modes 00 and 01 resolve none
(30_encoding.md R93). -/
def modeIndexExists (bb : Mode) (a1 : Addr1) : Bool :=
  match bb with
  | .absolute => true
  | .dispR0 => true
  | .indirect => indexExists (a1.setWidth 3)
  | .indirectDisp => indexExists (a1.setWidth 3)

/-- The instruction names only R0 and R1 (source invariant I3, 45_register_ops.md R225). Every 32-bit word with an
opcode of the table is still an instruction: one that fails this check decodes, and raises InvalidRegister when the
named register is resolved (log entry 12). -/
def Instr.wellFormed : Instr → Bool
  | .stop _ _ _ => true
  | .iadd bb a1 _ => modeIndexExists bb a1
  | .isub bb a1 _ => modeIndexExists bb a1
  | .imul bb a1 _ => modeIndexExists bb a1
  | .idiv bb a1 _ => modeIndexExists bb a1
  | .iin bb a1 _ => modeIndexExists bb a1
  | .iout bb a1 _ => modeIndexExists bb a1
  | .addr _ a1 a2 => indexExists (a1.setWidth 3) && indexExists (a2.setWidth 3)
  | .subr _ a1 a2 => indexExists (a1.setWidth 3) && indexExists (a2.setWidth 3)
  | .movr _ a1 a2 => indexExists (a1.setWidth 3) && indexExists (a2.setWidth 3)
  | .radd bb a1 _ => modeIndexExists bb a1
  | .rsub bb a1 _ => modeIndexExists bb a1
  | .rmul bb a1 _ => modeIndexExists bb a1
  | .rdiv bb a1 _ => modeIndexExists bb a1
  | .rin bb a1 _ => modeIndexExists bb a1
  | .rout bb a1 _ => modeIndexExists bb a1
  | .jz bb a1 _ => modeIndexExists bb a1
  | .jg bb a1 _ => modeIndexExists bb a1
  | .jl bb a1 _ => modeIndexExists bb a1
  | .load _ a1 _ => indexExists (a1.setWidth 3)
  | .store _ _ a2 => indexExists (a2.setWidth 3)

end Sys2Proof
end

