-- ==== Sys2Proof/Decode.lean ====
section
/-! DEFINITION. The decoder and the encoder of 30_encoding.md, with the bit-field and byte-order helpers both use. -/

namespace Sys2Proof

/-- `OP = w[31:24]` (30_encoding.md R80). -/
def opField (w : Word) : Byte := w.extractLsb' 24 8

/-- `BB = w[23:22]` (30_encoding.md R80). -/
def bbField (w : Word) : BitVec 2 := w.extractLsb' 22 2

/-- `A1 = w[21:10]` (30_encoding.md R80). -/
def a1Field (w : Word) : Addr1 := w.extractLsb' 10 12

/-- `A2 = w[9:0]` (30_encoding.md R80). -/
def a2Field (w : Word) : Addr2 := w.extractLsb' 0 10

/-- The mode that the two bits of `BB` select (30_encoding.md R90). -/
def Mode.ofBits (b : BitVec 2) : Mode :=
  if b = 0#2 then .absolute
  else if b = 1#2 then .dispR0
  else if b = 2#2 then .indirect
  else .indirectDisp

/-- The two bits of `BB` (30_encoding.md R90). -/
def Mode.bits : Mode → BitVec 2
  | .absolute => 0#2
  | .dispR0 => 1#2
  | .indirect => 2#2
  | .indirectDisp => 3#2

/-- The mode resolves the register `A1[2:0]`: 10 and 11 do, 00 and 01 do not (30_encoding.md R93). -/
abbrev Mode.resolves (bb : Mode) : Prop := bb = .indirect ∨ bb = .indirectDisp

/-- `A1[2:0]`: the register index `r` of classes M2, M1 and J, and the destination `d` of classes RR and RM
(30_encoding.md R91). -/
def a1Index (a1 : Addr1) : RegIndex := a1.extractLsb' 0 3

/-- `A2[2:0]`: the source register `s` of classes RR and MR (30_encoding.md R91). -/
def a2Index (a2 : Addr2) : RegIndex := a2.extractLsb' 0 3

/-- A row of the dispatch table: the opcode byte and the instruction it selects (30_encoding.md R86). -/
structure OpcodeRow where
  /-- The opcode byte. -/
  opcode : Byte
  /-- The instruction, given its three fields. -/
  make : Mode → Addr1 → Addr2 → Instr

/-- The dispatch table: exactly the 21 rows of 30_encoding.md R86, in its order. -/
def opcodeTable : List OpcodeRow :=
  [ ⟨0x00#8, .stop⟩,
    ⟨0x01#8, .iadd⟩,
    ⟨0x02#8, .isub⟩,
    ⟨0x03#8, .imul⟩,
    ⟨0x04#8, .idiv⟩,
    ⟨0x11#8, .iin⟩,
    ⟨0x12#8, .iout⟩,
    ⟨0x14#8, .addr⟩,
    ⟨0x15#8, .subr⟩,
    ⟨0x16#8, .movr⟩,
    ⟨0x21#8, .radd⟩,
    ⟨0x22#8, .rsub⟩,
    ⟨0x23#8, .rmul⟩,
    ⟨0x24#8, .rdiv⟩,
    ⟨0x31#8, .rin⟩,
    ⟨0x32#8, .rout⟩,
    ⟨0x41#8, .jz⟩,
    ⟨0x42#8, .jg⟩,
    ⟨0x43#8, .jl⟩,
    ⟨0x44#8, .load⟩,
    ⟨0x45#8, .store⟩ ]

/-- Why bytes are no instruction. -/
inductive DecodeError where
  /-- Fewer than four bytes are left (30_encoding.md R82: the length is always 4). -/
  | tooShort (got : Nat)
  /-- The opcode byte of the word is absent from the dispatch table (30_encoding.md R87). -/
  | absentOpcode (w : Word)
  deriving DecidableEq, Repr

/-- Look the opcode byte up in the dispatch table and hand the row the fields of the word
(40_fetch_decode_dispatch.md R113). Opcode byte 0 decodes to STOP here; whether a fetched word with top byte 0 gets
this far is decided at fetch (R112). -/
def decodeWord (w : Word) : Except DecodeError Instr :=
  match opcodeTable.find? (fun row => row.opcode == opField w) with
  | some row => .ok (row.make (Mode.ofBits (bbField w)) (a1Field w) (a2Field w))
  | none => .error (.absentOpcode w)

/-- The little-endian word of four bytes, the first at the lowest address (20_memory.md R52). -/
def wordOfBytes (b0 b1 b2 b3 : Byte) : Word := b3 ++ b2 ++ b1 ++ b0

/-- Byte `i` of a word, byte 0 the least significant (20_memory.md R53). -/
def byteOfWord (w : Word) (i : Nat) : Byte := w.extractLsb' (8 * i) 8

/-- The four bytes of a word, the lowest address first (20_memory.md R53, R54). -/
def bytesOfWord (w : Word) : List Byte :=
  [byteOfWord w 0, byteOfWord w 1, byteOfWord w 2, byteOfWord w 3]

/-- Decode the instruction at the front of a byte sequence; the rest of the bytes follow (30_encoding.md R82). -/
def decodeBytes : List Byte → Except DecodeError (Instr × List Byte)
  | b0 :: b1 :: b2 :: b3 :: rest =>
    match decodeWord (wordOfBytes b0 b1 b2 b3) with
    | .ok i => .ok (i, rest)
    | .error e => .error e
  | short => .error (.tooShort short.length)

/-- Packing: `(opcode << 24) | (bb << 22) | (addr1 << 10) | addr2` (30_encoding.md R81). -/
def packWord (op : Byte) (bb : BitVec 2) (a1 : Addr1) (a2 : Addr2) : Word := op ++ bb ++ a1 ++ a2

/-- The word of an instruction (30_encoding.md R81, R86). -/
def encode : Instr → Word
  | .stop bb a1 a2 => packWord 0x00#8 bb.bits a1 a2
  | .iadd bb a1 a2 => packWord 0x01#8 bb.bits a1 a2
  | .isub bb a1 a2 => packWord 0x02#8 bb.bits a1 a2
  | .imul bb a1 a2 => packWord 0x03#8 bb.bits a1 a2
  | .idiv bb a1 a2 => packWord 0x04#8 bb.bits a1 a2
  | .iin bb a1 a2 => packWord 0x11#8 bb.bits a1 a2
  | .iout bb a1 a2 => packWord 0x12#8 bb.bits a1 a2
  | .addr bb a1 a2 => packWord 0x14#8 bb.bits a1 a2
  | .subr bb a1 a2 => packWord 0x15#8 bb.bits a1 a2
  | .movr bb a1 a2 => packWord 0x16#8 bb.bits a1 a2
  | .radd bb a1 a2 => packWord 0x21#8 bb.bits a1 a2
  | .rsub bb a1 a2 => packWord 0x22#8 bb.bits a1 a2
  | .rmul bb a1 a2 => packWord 0x23#8 bb.bits a1 a2
  | .rdiv bb a1 a2 => packWord 0x24#8 bb.bits a1 a2
  | .rin bb a1 a2 => packWord 0x31#8 bb.bits a1 a2
  | .rout bb a1 a2 => packWord 0x32#8 bb.bits a1 a2
  | .jz bb a1 a2 => packWord 0x41#8 bb.bits a1 a2
  | .jg bb a1 a2 => packWord 0x42#8 bb.bits a1 a2
  | .jl bb a1 a2 => packWord 0x43#8 bb.bits a1 a2
  | .load bb a1 a2 => packWord 0x44#8 bb.bits a1 a2
  | .store bb a1 a2 => packWord 0x45#8 bb.bits a1 a2

/-- The bytes of an instruction, the lowest address first (30_encoding.md R82). -/
def encodeBytes (i : Instr) : List Byte := bytesOfWord (encode i)

/-- The instruction the decoder reads from the `nbits` low bits of `w`, laid out little-endian with every bit above
them 0. -/
def decodeTableWord (nbits w : Nat) : Option Instr :=
  match decodeBytes (bytesOfWord (BitVec.ofNat 32 (w % 2 ^ nbits))) with
  | .ok (i, _) => some i
  | .error _ => none

end Sys2Proof
end

