-- ==== Sys2Proof/Config.lean ====
section
/-! DEFINITION. The named model parameters of 00_scope.md R7, and the free values: FP_NAN and the rounding of literals. -/

namespace Sys2Proof

/-- `ZERO_OPCODE_FETCH`: what a fetched word with top byte 0 does (40_fetch_decode_dispatch.md R112, D1). -/
inductive ZeroOpcodeFetch where
  /-- The word is data: the fetch raises InvalidOpcode. -/
  | invalidOpcode
  /-- The word executes as STOP. -/
  | stop
  deriving DecidableEq, Repr

/-- `CARRY_ADD`: the width of the sum in the add carry formula (41_integer_arith.md R140, D12). -/
inductive CarryAdd where
  /-- The sum wraps modulo 2^32 before the comparison. -/
  | wrap32
  /-- The sum is the mathematical one. -/
  | exact
  deriving DecidableEq, Repr

/-- The parameters of 00_scope.md R7 that take a listed value. They ride in the state as plain data so that
a statement about every state holds for every setting (DESIGN CHOICE, log entry 1). -/
structure Config where
  /-- `ZERO_OPCODE_FETCH`. -/
  zeroOpcodeFetch : ZeroOpcodeFetch
  /-- `JUMP_ADVANCE`: whether a taken jump is followed by the step's IP increment. -/
  jumpAdvance : Bool
  /-- `CARRY_ADD`. -/
  carryAdd : CarryAdd
  deriving DecidableEq, Repr

/-- The defaults of 00_scope.md R7. -/
def Config.standard : Config :=
  { zeroOpcodeFetch := .invalidOpcode, jumpAdvance := true, carryAdd := .wrap32 }

/-- The operation argument of `FP_NAN` (42_float_arith.md R165): which float instruction makes the result. -/
inductive FloatOp where
  | add
  | sub
  | mul
  | div
  deriving DecidableEq, Repr

/-- FREE VALUE (42_float_arith.md R165, parameter `FP_NAN`, OPEN; log entry 4). For an operation and its two
operand words: the sign bit of the NaN written, and its fraction less one. Every 32-bit NaN pattern (exponent all
ones, fraction nonzero) is one such pair, and nothing says which one it is. -/
opaque Config.nanChoice : FloatOp → Word → Word → Bool × Fin 8388607

/-- FREE VALUE (93_implementation_defined.md X13; log entry 16). For the text of a decimal literal whose value is no
binary32 value: whether the loader writes the neighbour of greater magnitude or the one of lesser magnitude. -/
opaque Config.literalRoundsUp : List Char → Bool

end Sys2Proof
end

