-- ==== Sys2Proof/Machine/State.lean ====
section
/-! DEFINITION. The state of the block (10_state.md R20), its error kinds, and the state after Reset. -/

namespace Sys2Proof.Machine

/-- Why no step is defined. The block's own errors are no fault of this type: raising one is a next state
(60_exceptions.md R243). -/
inductive Fault where
  /-- Raised by `step` alone, in a state with `stop` or `error` set: such a state "has no step: it is terminal and
  quiescent" (40_fetch_decode_dispatch.md R110). Safe: nothing is claimed of a step the spec does not define
  (log entry 7). -/
  | halted
  /-- Raised by `step` alone, in a state that no Reset has reached: "A step is defined only after a Reset"
  (40_fetch_decode_dispatch.md R110). Safe: nothing is claimed of a step the spec does not define (log entry 19). -/
  | notReset
  deriving DecidableEq, Repr

/-- Why the model gives an instruction no meaning. -/
inductive Refusal where
  /-- Raised by `exec` for an instruction with no meaning yet; no arm does so. Safe: no next state is given. -/
  | notModelled (mnemonic : String)
  deriving DecidableEq, Repr

/-- The register ERR: an error kind or none (10_state.md R30, 60_exceptions.md R240). -/
inductive ErrKind where
  | none
  | outOfBounds
  | invalidIP
  | invalidOpcode
  | invalidRegister
  | divByZero
  | ioError
  deriving DecidableEq, Repr

/-- The `info` that a raised error hands to the error log: a diagnostic of the model, read by no rule
(60_exceptions.md R240, D34; log entry 8). -/
inductive ErrInfo where
  /-- No information: no error yet, or an IOError. -/
  | none
  /-- The address of an OutOfBounds or of the divisor of a DivByZero, or the IP of an InvalidIP. -/
  | address (a : Addr)
  /-- The fetched word of an InvalidOpcode. -/
  | word (w : Word)
  /-- The index of an InvalidRegister. -/
  | index (i : RegIndex)
  deriving DecidableEq, Repr

/-- The four status flags of the PSW (10_state.md R26). -/
structure Flags where
  /-- Sign. -/
  s : Bool
  /-- Carry. -/
  c : Bool
  /-- Overflow. -/
  v : Bool
  /-- Zero. -/
  z : Bool
  deriving DecidableEq, Repr

/-- All four flags clear: their values after Reset (10_state.md R31). -/
def Flags.clear : Flags := { s := false, c := false, v := false, z := false }

/-- An output event (43_io.md R182). -/
inductive OutEvent where
  /-- `OutInt(i)`, `i` a signed 32-bit value. -/
  | int (i : Int)
  /-- `OutFloat(bits)`, the raw 32 bits of the float. -/
  | float (bits : Word)
  deriving DecidableEq, Repr

/-- The host's answer to an integer request (43_io.md R180). -/
inductive IntAnswer where
  /-- `Int(n)`: `n` is the signed reading of the word. -/
  | int (n : Word)
  /-- `Fail`: malformed, out of range, or end of file. -/
  | fail
  deriving DecidableEq, Repr

/-- The host's answer to a float request (43_io.md R180). -/
inductive FloatAnswer where
  /-- `Float(bits)`: a binary32 encoding. -/
  | float (bits : Word)
  /-- `Fail`: malformed, out of range, or end of file. -/
  | fail
  deriving DecidableEq, Repr

/-- The memory `M` (20_memory.md R50), as the list of the bytes that differ from what an unlisted address reads as
(log entry 10). -/
abbrev Memory := List Host.Cell

/-- The state of the block. `mem` to `out` are the whole of 10_state.md R20; the last five fields are the model's
own (log entries 1, 5, 8, 19). -/
structure State where
  /-- `M[0..0xFFFF]` (R50). -/
  mem : Memory
  /-- R0, `x[0]` (R21). -/
  r0 : Word
  /-- R1, `x[1]` (R21). -/
  r1 : Word
  /-- The instruction pointer (R25). -/
  ip : Addr
  /-- S, C, V and Z (R26). -/
  flags : Flags
  /-- Set by STOP only (R29). -/
  stop : Bool
  /-- Set by a raised error only (R29). -/
  error : Bool
  /-- ERR (R30). -/
  err : ErrKind
  /-- OUT, oldest event first (R182). -/
  out : List OutEvent
  /-- The model's own: at least one Reset has been applied since processor creation (40_fetch_decode_dispatch.md R110,
  70_reset_and_hazards.md R271; log entry 19). -/
  resetDone : Bool
  /-- The model's own: what the last raised error told the error log (D34). -/
  errInfo : ErrInfo
  /-- The model's own: the host's answers to the integer requests to come, next one first (R180). -/
  intIn : List IntAnswer
  /-- The model's own: the host's answers to the float requests to come, next one first (R180). -/
  floatIn : List FloatAnswer
  /-- The model's own: the parameters of 00_scope.md R7, changed by no step. -/
  cfg : Config
  deriving DecidableEq, Repr

/-- The machine right after Reset over a freshly created processor (10_state.md R31, 70_reset_and_hazards.md R271).
The entry point is an input of Reset; 0 stands for it here (DESIGN CHOICE, log entry 2). -/
def State.reset : State :=
  { mem := []
    r0 := 0#32
    r1 := 0#32
    ip := 0#16
    flags := Flags.clear
    stop := false
    error := false
    err := .none
    out := []
    resetDone := true
    errInfo := .none
    intIn := []
    floatIn := []
    cfg := Config.standard }

end Sys2Proof.Machine
end

