-- ==== Sys2Proof/Machine/Ops.lean ====
section
/-! DEFINITION. The named operations over memory, registers, IP, output and input, and raising an error. -/

namespace Sys2Proof.Machine

/-- What `step` and every meaning answer. -/
abbrev Result := Host.Outcome State Fault Refusal

/-! ## Errors -/

/-- An error with the `info` it is raised with (60_exceptions.md R240). -/
inductive Err where
  | outOfBounds (a : Addr)
  | invalidIP (ip : Addr)
  | invalidOpcode (w : Word)
  | invalidRegister (i : RegIndex)
  | divByZero (e2 : Addr)
  | ioError
  deriving DecidableEq, Repr

/-- The kind that ERR records (60_exceptions.md R240). -/
def Err.kind : Err → ErrKind
  | .outOfBounds _ => .outOfBounds
  | .invalidIP _ => .invalidIP
  | .invalidOpcode _ => .invalidOpcode
  | .invalidRegister _ => .invalidRegister
  | .divByZero _ => .divByZero
  | .ioError => .ioError

/-- What the error log is told (60_exceptions.md R240, last column). -/
def Err.info : Err → ErrInfo
  | .outOfBounds a => .address a
  | .invalidIP ip => .address ip
  | .invalidOpcode w => .word w
  | .invalidRegister i => .index i
  | .divByZero e2 => .address e2
  | .ioError => .none

/-- The code of an error kind, the 3-bit value of ERR (60_exceptions.md R240, D20). -/
def ErrKind.code : ErrKind → BitVec 3
  | .none => 0#3
  | .outOfBounds => 1#3
  | .invalidIP => 2#3
  | .invalidOpcode => 3#3
  | .invalidRegister => 4#3
  | .divByZero => 5#3
  | .ioError => 6#3

/-! ## Memory -/

/-- What an unlisted address reads as: memory is zero at processor creation (10_state.md R31). -/
def Memory.unlisted : Byte := 0#8

/-- `is_valid_address(a)`: `0 <= a < 65536` (20_memory.md R50). -/
def isValidAddress (a : Nat) : Bool := decide (a < 65536)

/-- The byte at an address. -/
def Memory.byteAt : Memory → Nat → Byte
  | [], _ => Memory.unlisted
  | c :: m, a => if c.1 = a then c.2 else Memory.byteAt m a

/-- The memory without an entry for `a`: the byte there reads as unlisted. -/
def Memory.erase (m : Memory) (a : Nat) : Memory := m.filter (fun c => c.1 != a)

/-- Insert an entry before the first greater address. -/
def Memory.insert : Memory → Nat → Byte → Memory
  | [], a, b => [(a, b)]
  | c :: m, a, b => if a < c.1 then (a, b) :: c :: m else c :: Memory.insert m a b

/-- Set the byte at an address, keeping the canonical form (log entry 10). -/
def Memory.setByte (m : Memory) (a : Nat) (b : Byte) : Memory :=
  if b = Memory.unlisted then m.erase a else (m.erase a).insert a b

/-- Every address of the list is at least `lo` and an address of the space, they rise strictly, and no entry reads as
an unlisted address does. -/
def Memory.wfFrom : Nat → Memory → Bool
  | _, [] => true
  | lo, c :: m => decide (lo ≤ c.1) && isValidAddress c.1 && decide (c.2 ≠ Memory.unlisted) && Memory.wfFrom (c.1 + 1) m

/-- The canonical form (log entry 10). -/
def Memory.wf (m : Memory) : Bool := Memory.wfFrom 0 m

/-- `WordOK(a)`: a word access at `a` is legal iff `a + 3 <= 0xFFFF` on mathematical integers (20_memory.md R51). -/
def wordOK (a : Addr) : Bool := decide (a.toNat + 3 ≤ 0xFFFF)

/-- The four bytes of the window at `a`, little-endian (20_memory.md R52), with no bounds check. -/
def Memory.wordAt (m : Memory) (a : Nat) : Word :=
  wordOfBytes (m.byteAt a) (m.byteAt (a + 1)) (m.byteAt (a + 2)) (m.byteAt (a + 3))

/-- Store the four bytes of `v` at `a`, little-endian (20_memory.md R53), with no bounds check. -/
def Memory.setWord (m : Memory) (a : Nat) (v : Word) : Memory :=
  (((m.setByte a (byteOfWord v 0)).setByte (a + 1) (byteOfWord v 1)).setByte (a + 2) (byteOfWord v 2)).setByte (a + 3)
    (byteOfWord v 3)

/-- `MemRead(a, 4)` (20_memory.md R52). -/
def memRead (m : Memory) (a : Addr) : Except Err Word :=
  if wordOK a then .ok (m.wordAt a.toNat) else .error (.outOfBounds a)

/-- `MemWrite(a, 4, v)` (20_memory.md R53). -/
def memWrite (m : Memory) (a : Addr) (v : Word) : Except Err Memory :=
  if wordOK a then .ok (m.setWord a.toNat v) else .error (.outOfBounds a)

/-! ## The Preload port (00_scope.md R13, 20_memory.md R56, R57): no instruction reaches it. Its addresses are wider
than 16 bits where the caller's are, so that every address has its check. -/

/-- `read_byte(a)`: faults iff `a` is not a valid address (20_memory.md R56). -/
def preloadReadByte (m : Memory) (a : Nat) : Option Byte :=
  if isValidAddress a then some (m.byteAt a) else none

/-- `write_byte(a, v)`: faults iff `a` is not a valid address (20_memory.md R56). -/
def preloadWriteByte (m : Memory) (a : Nat) (v : Byte) : Option Memory :=
  if isValidAddress a then some (m.setByte a v) else none

/-- `read_word(a)`: faults iff the window leaves memory (20_memory.md R51, R52). -/
def preloadReadWord (m : Memory) (a : Nat) : Option Word :=
  if a + 3 < 65536 then some (m.wordAt a) else none

/-- `write_word(a, w)`: faults iff the window leaves memory (20_memory.md R51, R53). -/
def preloadWriteWord (m : Memory) (a : Nat) (w : Word) : Option Memory :=
  if a + 3 < 65536 then some (m.setWord a w) else none

/-- `clear()`: every byte of memory becomes 0 (20_memory.md R57). -/
def preloadClear (_ : Memory) : Memory := []

/-! ## Updates of one part of the state -/

/-- The state with another memory. -/
def State.withMem (s : State) (m : Memory) : State := { s with mem := m }

/-- The state with other flags (10_state.md R26). -/
def State.withFlags (s : State) (f : Flags) : State := { s with flags := f }

/-- `x[i] <- v` for an index that `regRead` or `checkIndex` has passed (00_scope.md R11). -/
def State.withReg (s : State) (i : RegIndex) (v : Word) : State :=
  if i = 0#3 then { s with r0 := v } else if i = 1#3 then { s with r1 := v } else s

/-- `OUT <- OUT ++ [event]` (43_io.md R182). -/
def State.emit (s : State) (e : OutEvent) : State := { s with out := s.out ++ [e] }

/-- The integer answers left after one is consumed (43_io.md R180, R186). -/
def State.withIntIn (s : State) (rest : List IntAnswer) : State := { s with intIn := rest }

/-- The float answers left after one is consumed (43_io.md R180, R186). -/
def State.withFloatIn (s : State) (rest : List FloatAnswer) : State := { s with floatIn := rest }

/-- Outcome `Next`: `IP <- (IP + 1) mod 65536` (40_fetch_decode_dispatch.md R115). -/
def State.advance (s : State) : State := { s with ip := s.ip + 1#16 }

/-- Outcome `Jump(t)`: `IP <- t`, then the step's increment if `JUMP_ADVANCE` (40_fetch_decode_dispatch.md R115). -/
def State.jumpTo (s : State) (t : Addr) : State :=
  { s with ip := if s.cfg.jumpAdvance then t + 1#16 else t }

/-- Outcome `Stop`: `stop <- true`, IP not advanced (40_fetch_decode_dispatch.md R115). -/
def State.halt (s : State) : State := { s with stop := true }

/-- Raising an error, the block's exception entry: `error` and ERR are set, and nothing else changes but the
diagnostic (60_exceptions.md R243). There is no return from it (R246): only Reset leaves it. -/
def State.raise (s : State) (e : Err) : State :=
  { s with error := true, err := e.kind, errInfo := e.info }

/-- Run `k` on what a checked operation gives, or end the instruction with the error it raises
(40_fetch_decode_dispatch.md R116: any raise ends the step with the effects of R243). -/
def orRaise {α : Type} (s : State) (r : Except Err α) (k : α → Result) : Result :=
  match r with
  | .ok x => k x
  | .error e => .next (s.raise e)

/-! ## Registers -/

/-- The index check of `RegRead`: `raise InvalidRegister(i)` unless `i` is 0 or 1 (00_scope.md R11). -/
def checkIndex (i : RegIndex) : Except Err Unit :=
  if i.toNat < 2 then .ok () else .error (.invalidRegister i)

/-- `RegRead(i)` (00_scope.md R11). -/
def regRead (s : State) (i : RegIndex) : Except Err Word :=
  if i = 0#3 then .ok s.r0 else if i = 1#3 then .ok s.r1 else .error (.invalidRegister i)

/-! ## Creation and Reset -/

/-- The processor as created (10_state.md R31, first column): memory and registers zero, no stop, no error, OUT empty,
no Reset yet. IP and the flags are unspecified there, so they are arguments (log entry 9); the parameters and the host's
answers are the environment's. -/
def State.created (ip : Addr) (flags : Flags) (cfg : Config) (intIn : List IntAnswer) (floatIn : List FloatAnswer) :
    State :=
  { mem := [], r0 := 0#32, r1 := 0#32, ip := ip, flags := flags, stop := false, error := false, err := .none, out := [],
    resetDone := false, errInfo := .none, intIn := intIn, floatIn := floatIn, cfg := cfg }

/-- `Reset(entry)` (70_reset_and_hazards.md R271). Memory is kept; so are the parameters and the host's answers, which
are not the block's. From here on a step is defined. -/
def State.resetTo (s : State) (entry : Addr) : State :=
  { s with
    ip := entry, flags := Flags.clear, r0 := 0#32, r1 := 0#32, stop := false, error := false, err := .none,
    resetDone := true, errInfo := .none, out := [] }

end Sys2Proof.Machine
end

