-- ==== Sys2Proof/Machine/Operands.lean ====
section
/-! DEFINITION. Address resolution (30_encoding.md R90 to R93) and the operand sequences of the instruction classes. -/

namespace Sys2Proof.Machine

/-- `zext(A1)` to 16 bits (30_encoding.md R92). -/
def zextA1 (a1 : Addr1) : Addr := a1.setWidth 16

/-- `zext(A2)` to 16 bits (30_encoding.md R92). -/
def zextA2 (a2 : Addr2) : Addr := a2.setWidth 16

/-- `trunc32(zext(addr) + s32(x))[15:0]` (30_encoding.md R90). -/
def displaced (addr : Addr) (x : Word) : Addr := (trunc32 ((addr.toNat : Int) + s32 x)).setWidth 16

/-- `EA(bb, addr, r)` (30_encoding.md R90). Only modes 10 and 11 resolve `r` (R93). -/
def effAddr (s : State) (bb : Mode) (addr : Addr) (r : RegIndex) : Except Err Addr :=
  match bb with
  | .absolute => .ok addr
  | .dispR0 => .ok (displaced addr s.r0)
  | .indirect =>
    match regRead s r with
    | .ok x => .ok (x.setWidth 16)
    | .error e => .error e
  | .indirectDisp =>
    match regRead s r with
    | .ok x => .ok (displaced addr x)
    | .error e => .error e

/-- `EA1 = EA(BB, zext(A1), A1[2:0])` (30_encoding.md R92). -/
def ea1 (s : State) (bb : Mode) (a1 : Addr1) : Except Err Addr := effAddr s bb (zextA1 a1) (a1Index a1)

/-- `EA2 = EA(BB, zext(A2), A1[2:0])`: the register index is shared with the first operand (30_encoding.md R92). -/
def ea2 (s : State) (bb : Mode) (a1 : Addr1) (a2 : Addr2) : Except Err Addr :=
  effAddr s bb (zextA2 a2) (a1Index a1)

/-- What the operand sequence of class M2 gives (40_fetch_decode_dispatch.md R119). -/
structure OperandPair where
  /-- The address of the first operand, which is also the destination. -/
  e1 : Addr
  /-- The address of the second operand. -/
  e2 : Addr
  /-- The word at `e1`. -/
  w1 : Word
  /-- The word at `e2`. -/
  w2 : Word
  deriving DecidableEq, Repr

/-- The operand sequence of class M2: both addresses, then both words, each check in this order
(40_fetch_decode_dispatch.md R119). -/
def operandPair (s : State) (bb : Mode) (a1 : Addr1) (a2 : Addr2) : Except Err OperandPair :=
  match ea1 s bb a1 with
  | .error e => .error e
  | .ok e1 =>
    match ea2 s bb a1 a2 with
    | .error e => .error e
    | .ok e2 =>
      match memRead s.mem e1 with
      | .error e => .error e
      | .ok w1 =>
        match memRead s.mem e2 with
        | .error e => .error e
        | .ok w2 => .ok { e1 := e1, e2 := e2, w1 := w1, w2 := w2 }

/-- The two register operands of class RR, `d` checked before `s` (45_register_ops.md R222, R225). -/
def registerPair (s : State) (a1 : Addr1) (a2 : Addr2) : Except Err (Word × Word) :=
  match regRead s (a1Index a1) with
  | .error e => .error e
  | .ok a =>
    match regRead s (a2Index a2) with
    | .error e => .error e
    | .ok b => .ok (a, b)

/-- Write a result word to `e`, then the flags, then advance IP: the end of every class M2 instruction
(20_memory.md R63, R118). -/
def storeResult (s : State) (e : Addr) (res : Word) (f : Flags) : Result :=
  orRaise s (memWrite s.mem e res) fun m => .next ((s.withMem m).withFlags f).advance

/-- Write a word to `e` and advance IP, the flags unchanged: the end of IIN, RIN and STORE. -/
def storeWord (s : State) (e : Addr) (w : Word) : Result :=
  orRaise s (memWrite s.mem e w) fun m => .next (s.withMem m).advance

end Sys2Proof.Machine
end

