-- ==== Sys2Proof/Machine/Console.lean ====
section
/-! DEFINITION. Console input and output (43_io.md). An input instruction whose request the host has not answered
leaves the state as it is: the machine is still inside that step (R180, 10_state.md R34 b; log entry 6). -/

namespace Sys2Proof.Machine

/-- IIN: a decimal integer from the host to `[EA1]` (R181). The address is resolved before the request; the answer is
consumed before the store is checked (D11). -/
def execIin (bb : Mode) (a1 : Addr1) (_a2 : Addr2) (s : State) : Result :=
  orRaise s (ea1 s bb a1) fun e1 =>
    match s.intIn with
    | [] => .next s
    | .fail :: rest => .next ((s.withIntIn rest).raise .ioError)
    | .int n :: rest => storeWord (s.withIntIn rest) e1 (trunc32 (s32 n))

/-- IOUT: the integer view of `[EA1]` to the host (R183). -/
def execIout (bb : Mode) (a1 : Addr1) (_a2 : Addr2) (s : State) : Result :=
  orRaise s (ea1 s bb a1) fun e1 =>
    orRaise s (memRead s.mem e1) fun w => .next (s.emit (.int (s32 w))).advance

/-- RIN: a float from the host to `[EA1]` (R184), with the order of IIN. -/
def execRin (bb : Mode) (a1 : Addr1) (_a2 : Addr2) (s : State) : Result :=
  orRaise s (ea1 s bb a1) fun e1 =>
    match s.floatIn with
    | [] => .next s
    | .fail :: rest => .next ((s.withFloatIn rest).raise .ioError)
    | .float bits :: rest => storeWord (s.withFloatIn rest) e1 bits

/-- ROUT: the float view of `[EA1]` to the host, as its raw bits (R185). -/
def execRout (bb : Mode) (a1 : Addr1) (_a2 : Addr2) (s : State) : Result :=
  orRaise s (ea1 s bb a1) fun e1 =>
    orRaise s (memRead s.mem e1) fun w => .next (s.emit (.float w)).advance

end Sys2Proof.Machine
end

