-- ==== Sys2Proof/Machine/Control.lean ====
section
/-! DEFINITION. STOP (40_fetch_decode_dispatch.md R120). -/

namespace Sys2Proof.Machine

/-- STOP: `stop <- true`, IP unchanged, every field ignored (R120). That a word with top byte 0 reaches this only under
`ZERO_OPCODE_FETCH = Stop` is the fetch's rule (R112). -/
def execStop (_bb : Mode) (_a1 : Addr1) (_a2 : Addr2) (s : State) : Result := .next s.halt

end Sys2Proof.Machine
end

