-- ==== Sys2Proof/Machine/Float.lean ====
section
/-! DEFINITION. IEEE-754 binary32 arithmetic (00_scope.md R10, 42_float_arith.md R165), computed exactly and rounded
once. What the spec leaves to IEEE-754 itself (signs of zeros, infinities, the overflow threshold) is PRESUMED, log
entry 13. A finite binary32 value is an integer multiple of 2^-149; that multiple is what `units` gives. -/

namespace Sys2Proof.Machine

/-- The sign bit, bit 31 (00_scope.md R10). -/
def signBit (w : Word) : Bool := w.msb

/-- The biased exponent, bits 30:23 (00_scope.md R10). -/
def expField (w : Word) : BitVec 8 := w.extractLsb' 23 8

/-- The fraction, bits 22:0 (00_scope.md R10). -/
def fracField (w : Word) : BitVec 23 := w.extractLsb' 0 23

/-- A NaN pattern: exponent bits all ones, fraction nonzero (42_float_arith.md R165). -/
def isNaN (w : Word) : Bool := expField w == 0xFF#8 && fracField w != 0#23

/-- An infinity: exponent bits all ones, fraction zero. -/
def isInf (w : Word) : Bool := expField w == 0xFF#8 && fracField w == 0#23

/-- A finite value: neither a NaN nor an infinity. -/
def isFinite (w : Word) : Bool := expField w != 0xFF#8

/-- `f32(w) == 0.0` as a number: true for +0.0 and -0.0 (42_float_arith.md R160, R164). -/
def isZero (w : Word) : Bool := expField w == 0#8 && fracField w == 0#23

/-- `f32(w) < 0.0` as a number: false for -0.0 and for every NaN (42_float_arith.md R160). -/
def isNegative (w : Word) : Bool := signBit w && !isZero w && !isNaN w

/-- The magnitude of the finite value whose bits 30:0 are `mag`, in units of 2^-149: a subnormal is its fraction, a
normal is 2^23 plus its fraction, shifted by its exponent field less one. -/
def magUnits (mag : Nat) : Nat :=
  if mag / 2 ^ 23 = 0 then mag % 2 ^ 23 else (2 ^ 23 + mag % 2 ^ 23) * 2 ^ (mag / 2 ^ 23 - 1)

/-- Bits 30:0 of a word. -/
def magBits (w : Word) : Nat := w.toNat % 2 ^ 31

/-- The magnitude of a finite value in units of 2^-149. -/
def absUnits (w : Word) : Nat := magUnits (magBits w)

/-- A finite value in units of 2^-149. -/
def units (w : Word) : Int := if signBit w then -(absUnits w : Int) else (absUnits w : Int)

/-- Bits 30:0 of infinity. -/
def infMag : Nat := 0x7F800000

/-- Where a quotient lies among the patterns, before any rounding. -/
structure MagCut where
  /-- The greatest pattern whose magnitude does not exceed the quotient. It may lie beyond infinity's. -/
  below : Nat
  /-- How far the quotient lies above it, times the divisor. -/
  rest : Nat
  /-- How far the next pattern lies above it, times the divisor. -/
  gap : Nat
  deriving DecidableEq, Repr

/-- Cut `p / q` units of 2^-149 to a 24-bit significand at the place its size asks for, never below the last subnormal
bit. -/
def cutMag (p q : Nat) : MagCut :=
  let k := Nat.log2 (p / q) - 23
  let d := q * 2 ^ k
  { below := k * 2 ^ 23 + p / d, rest := p % d, gap := d }

/-- Bits 30:0 of the binary32 value nearest to `p / q` units of 2^-149, a tie going to the even pattern, and infinity
from the overflow threshold on (42_float_arith.md R165). Adding the rounding bit to the packed pattern carries into the
exponent by itself. -/
def roundMag (p q : Nat) : Nat :=
  let c := cutMag p q
  let up := if c.gap < 2 * c.rest ∨ (2 * c.rest = c.gap ∧ c.below % 2 = 1) then 1 else 0
  min (c.below + up) infMag

/-- A word from its sign and its bits 30:0. -/
def packFloat (neg : Bool) (mag : Nat) : Word := BitVec.ofBool neg ++ BitVec.ofNat 31 mag

/-- `fadd`, or none where the IEEE-754 result is a NaN (42_float_arith.md R161, R165). An exact zero sum is -0.0 only
when both operands are negative zeros or negative. -/
def fadd (a b : Word) : Option Word :=
  if isNaN a || isNaN b then none
  else if isInf a then (if isInf b && signBit a != signBit b then none else some a)
  else if isInf b then some b
  else
    let n := units a + units b
    if n = 0 then some (packFloat (signBit a && signBit b) 0)
    else some (packFloat (decide (n < 0)) (roundMag n.natAbs 1))

/-- The word with its sign bit flipped. -/
def negate (w : Word) : Word := w ^^^ 0x80000000#32

/-- `fsub`: addition of the negated second operand (42_float_arith.md R162). -/
def fsub (a b : Word) : Option Word := fadd a (negate b)

/-- `fmul`, or none where the IEEE-754 result is a NaN (42_float_arith.md R163, R165). -/
def fmul (a b : Word) : Option Word :=
  if isNaN a || isNaN b then none
  else if isInf a || isInf b then
    (if isZero a || isZero b then none else some (packFloat (signBit a != signBit b) infMag))
  else some (packFloat (signBit a != signBit b) (roundMag (absUnits a * absUnits b) (2 ^ 149)))

/-- `fdiv`, or none where the IEEE-754 result is a NaN (42_float_arith.md R164, R165). RDIV raises DivByZero before a
zero divisor reaches this. -/
def fdiv (a b : Word) : Option Word :=
  if isNaN a || isNaN b then none
  else if isInf a then (if isInf b then none else some (packFloat (signBit a != signBit b) infMag))
  else if isInf b then some (packFloat (signBit a != signBit b) 0)
  else if isZero b then (if isZero a then none else some (packFloat (signBit a != signBit b) infMag))
  else some (packFloat (signBit a != signBit b) (roundMag (absUnits a * 2 ^ 149) (absUnits b)))

/-- `FP_NAN(op, w1, w2)`: some 32-bit NaN pattern, free (42_float_arith.md R165, log entry 4). -/
def fpNan (op : FloatOp) (w1 w2 : Word) : Word :=
  let choice := Config.nanChoice op w1 w2
  BitVec.ofBool choice.1 ++ 0xFF#8 ++ BitVec.ofNat 23 (choice.2.val + 1)

/-- `fop(f32(w1), f32(w2))` for the operation `op`, none for a NaN. -/
def fop (op : FloatOp) (w1 w2 : Word) : Option Word :=
  match op with
  | .add => fadd w1 w2
  | .sub => fsub w1 w2
  | .mul => fmul w1 w2
  | .div => fdiv w1 w2

/-- `bits32(fop(fa, fb))`, with `FP_NAN(op, w1, w2)` for a NaN result (42_float_arith.md R160). -/
def floatResult (op : FloatOp) (w1 w2 : Word) : Word :=
  match fop op w1 w2 with
  | some w => w
  | none => fpNan op w1 w2

end Sys2Proof.Machine
end

