-- ==== Sys2Proof/Machine/Flags.lean ====
section
/-! DEFINITION. Every flag computation of the spec, and the packed flag word. -/

namespace Sys2Proof.Machine

/-- `FW = (S << 15) | (V << 11) | (Z << 10) | C`, all other bits 0 (10_state.md R27). -/
def flagWord (f : Flags) : BitVec 16 :=
  ((BitVec.ofBool f.s).setWidth 16 <<< 15) ||| ((BitVec.ofBool f.v).setWidth 16 <<< 11) |||
    ((BitVec.ofBool f.z).setWidth 16 <<< 10) ||| (BitVec.ofBool f.c).setWidth 16

/-- `AddFlags(a, b, res)` (41_integer_arith.md R140), the formulas verbatim; `CARRY_ADD` chooses the sum. -/
def addFlags (carry : CarryAdd) (a b res : Word) : Flags :=
  { s := decide (s32 res < 0)
    z := decide (res = 0#32)
    v := decide ((0 < s32 a ∧ 0 < s32 b ∧ s32 res < 0) ∨ (s32 a < 0 ∧ s32 b < 0 ∧ 0 < s32 res))
    c := match carry with
      | .wrap32 => decide (0x7FFFFFFF < (u32 a + u32 b) % 2 ^ 32)
      | .exact => decide (0x7FFFFFFF < u32 a + u32 b) }

/-- `SubFlags(a, b, res)` (41_integer_arith.md R141). -/
def subFlags (a b res : Word) : Flags :=
  { s := decide (s32 res < 0)
    z := decide (res = 0#32)
    v := decide ((0 < s32 a ∧ s32 b < 0 ∧ s32 res < 0) ∨ (s32 a < 0 ∧ 0 < s32 b ∧ 0 < s32 res))
    c := decide (u32 a < u32 b) }

/-- The flags of IMUL (41_integer_arith.md R142): V divides the truncated product back by the second operand, guarded
by `b != 0`, and the quotient wraps (D14, D15). -/
def mulFlags (a b res : Word) : Flags :=
  { s := decide (s32 res < 0)
    z := decide (res = 0#32)
    v := decide (s32 b ≠ 0 ∧ s32 (trunc32 (Int.tdiv (s32 res) (s32 b))) ≠ s32 a)
    c := false }

/-- The flags of IDIV (41_integer_arith.md R143). -/
def divFlags (res : Word) : Flags :=
  { s := decide (s32 res < 0), z := decide (res = 0#32), v := false, c := false }

/-- `FloatFlags(f32(res))` (42_float_arith.md R160): numeric comparisons with 0.0. -/
def floatFlags (res : Word) : Flags := { s := isNegative res, z := isZero res, v := false, c := false }

end Sys2Proof.Machine
end

