-- ==== Sys2Proof/Machine/FloatArith.lean ====
section
/-! DEFINITION. Floating-point arithmetic on memory words (42_float_arith.md). -/

namespace Sys2Proof.Machine

/-- The end of every float instruction: the result of `op` to `e1`, S and Z from it, C and V clear (R160). -/
def storeFloat (op : FloatOp) (s : State) (o : OperandPair) : Result :=
  storeResult s o.e1 (floatResult op o.w1 o.w2) (floatFlags (floatResult op o.w1 o.w2))

/-- RADD: `[EA1].F <- [EA1].F + [EA2].F` (R161). -/
def execRadd (bb : Mode) (a1 : Addr1) (a2 : Addr2) (s : State) : Result :=
  orRaise s (operandPair s bb a1 a2) fun o => storeFloat .add s o

/-- RSUB: `[EA1].F <- [EA1].F - [EA2].F` (R162). -/
def execRsub (bb : Mode) (a1 : Addr1) (a2 : Addr2) (s : State) : Result :=
  orRaise s (operandPair s bb a1 a2) fun o => storeFloat .sub s o

/-- RMUL: `[EA1].F <- [EA1].F * [EA2].F` (R163). -/
def execRmul (bb : Mode) (a1 : Addr1) (a2 : Addr2) (s : State) : Result :=
  orRaise s (operandPair s bb a1 a2) fun o => storeFloat .mul s o

/-- RDIV: `[EA1].F <- [EA1].F / [EA2].F`; a divisor of +0.0 or -0.0 raises DivByZero at its address (R164). -/
def execRdiv (bb : Mode) (a1 : Addr1) (a2 : Addr2) (s : State) : Result :=
  orRaise s (operandPair s bb a1 a2) fun o =>
    if isZero o.w2 then .next (s.raise (.divByZero o.e2)) else storeFloat .div s o

end Sys2Proof.Machine
end

