-- ==== Sys2Proof/Machine/IntArith.lean ====
section
/-! DEFINITION. Integer arithmetic on memory words (41_integer_arith.md). -/

namespace Sys2Proof.Machine

/-- IADD: `[EA1] <- [EA1] + [EA2]` (R140). -/
def execIadd (bb : Mode) (a1 : Addr1) (a2 : Addr2) (s : State) : Result :=
  orRaise s (operandPair s bb a1 a2) fun o =>
    let res := trunc32 (s32 o.w1 + s32 o.w2)
    storeResult s o.e1 res (addFlags s.cfg.carryAdd o.w1 o.w2 res)

/-- ISUB: `[EA1] <- [EA1] - [EA2]` (R141). -/
def execIsub (bb : Mode) (a1 : Addr1) (a2 : Addr2) (s : State) : Result :=
  orRaise s (operandPair s bb a1 a2) fun o =>
    let res := trunc32 (s32 o.w1 - s32 o.w2)
    storeResult s o.e1 res (subFlags o.w1 o.w2 res)

/-- IMUL: `[EA1] <- [EA1] * [EA2]`, low 32 bits (R142). -/
def execImul (bb : Mode) (a1 : Addr1) (a2 : Addr2) (s : State) : Result :=
  orRaise s (operandPair s bb a1 a2) fun o =>
    let res := trunc32 (s32 o.w1 * s32 o.w2)
    storeResult s o.e1 res (mulFlags o.w1 o.w2 res)

/-- IDIV: `[EA1] <- [EA1] / [EA2]`, rounded toward zero; a zero divisor raises DivByZero at its address (R143). -/
def execIdiv (bb : Mode) (a1 : Addr1) (a2 : Addr2) (s : State) : Result :=
  orRaise s (operandPair s bb a1 a2) fun o =>
    if s32 o.w2 = 0 then .next (s.raise (.divByZero o.e2))
    else
      let res := trunc32 (Int.tdiv (s32 o.w1) (s32 o.w2))
      storeResult s o.e1 res (divFlags res)

end Sys2Proof.Machine
end

