-- ==== Sys2Proof/Machine/Jumps.lean ====
section
/-! DEFINITION. The conditional jumps (44_control_flow.md). -/

namespace Sys2Proof.Machine

/-- `JCOND`: test the flag word; only a taken jump resolves its target (R200, D8). -/
def jumpIf (taken : Bool) (bb : Mode) (a1 : Addr1) (s : State) : Result :=
  if taken then orRaise s (ea1 s bb a1) fun t => .next (s.jumpTo t) else .next s.advance

/-- JZ: taken iff the flag word is zero (R201). -/
def execJz (bb : Mode) (a1 : Addr1) (_a2 : Addr2) (s : State) : Result :=
  jumpIf (decide (flagWord s.flags = 0#16)) bb a1 s

/-- JG: taken iff the flag word, read as signed 16-bit, is greater than zero (R202). -/
def execJg (bb : Mode) (a1 : Addr1) (_a2 : Addr2) (s : State) : Result :=
  jumpIf (decide (0 < s16 (flagWord s.flags))) bb a1 s

/-- JL: taken iff the flag word, read as signed 16-bit, is less than zero (R203). -/
def execJl (bb : Mode) (a1 : Addr1) (_a2 : Addr2) (s : State) : Result :=
  jumpIf (decide (s16 (flagWord s.flags) < 0)) bb a1 s

end Sys2Proof.Machine
end

