-- ==== Sys2Proof/Machine/RegisterOps.lean ====
section
/-! DEFINITION. Register load and store, and register-register operations (45_register_ops.md). -/

namespace Sys2Proof.Machine

/-- LOAD: `R(A1[2:0]) <- [A2].I`, the address absolute (R220). -/
def execLoad (_bb : Mode) (a1 : Addr1) (a2 : Addr2) (s : State) : Result :=
  orRaise s (checkIndex (a1Index a1)) fun _ =>
    orRaise s (memRead s.mem (zextA2 a2)) fun w => .next (s.withReg (a1Index a1) w).advance

/-- STORE: `[A1] <- R(A2[2:0])`, the address absolute (R221). -/
def execStore (_bb : Mode) (a1 : Addr1) (a2 : Addr2) (s : State) : Result :=
  orRaise s (regRead s (a2Index a2)) fun v => storeWord s (zextA1 a1) v

/-- ADDR: `R(d) <- R(d) + R(s)`, the flags of IADD (R222). -/
def execAddr (_bb : Mode) (a1 : Addr1) (a2 : Addr2) (s : State) : Result :=
  orRaise s (registerPair s a1 a2) fun p =>
    let res := trunc32 (s32 p.1 + s32 p.2)
    .next ((s.withReg (a1Index a1) res).withFlags (addFlags s.cfg.carryAdd p.1 p.2 res)).advance

/-- SUBR: `R(d) <- R(d) - R(s)`, the flags of ISUB (R223). -/
def execSubr (_bb : Mode) (a1 : Addr1) (a2 : Addr2) (s : State) : Result :=
  orRaise s (registerPair s a1 a2) fun p =>
    let res := trunc32 (s32 p.1 - s32 p.2)
    .next ((s.withReg (a1Index a1) res).withFlags (subFlags p.1 p.2 res)).advance

/-- MOVR: `R(d) <- R(s)`, `d` checked first (R224). -/
def execMovr (_bb : Mode) (a1 : Addr1) (a2 : Addr2) (s : State) : Result :=
  orRaise s (checkIndex (a1Index a1)) fun _ =>
    orRaise s (regRead s (a2Index a2)) fun v => .next (s.withReg (a1Index a1) v).advance

end Sys2Proof.Machine
end

