-- ==== Sys2Proof/Machine/Dispatch.lean ====
section
/-! DEFINITION. The dispatch: one arm per constructor of Instr (40_fetch_decode_dispatch.md R113). -/

namespace Sys2Proof.Machine

def exec (i : Instr) (s : State) : Host.Outcome State Fault Refusal :=
  match i with
  | .stop bb a1 a2 => Sys2Proof.Machine.execStop bb a1 a2 s
  | .iadd bb a1 a2 => Sys2Proof.Machine.execIadd bb a1 a2 s
  | .isub bb a1 a2 => Sys2Proof.Machine.execIsub bb a1 a2 s
  | .imul bb a1 a2 => Sys2Proof.Machine.execImul bb a1 a2 s
  | .idiv bb a1 a2 => Sys2Proof.Machine.execIdiv bb a1 a2 s
  | .iin bb a1 a2 => Sys2Proof.Machine.execIin bb a1 a2 s
  | .iout bb a1 a2 => Sys2Proof.Machine.execIout bb a1 a2 s
  | .addr bb a1 a2 => Sys2Proof.Machine.execAddr bb a1 a2 s
  | .subr bb a1 a2 => Sys2Proof.Machine.execSubr bb a1 a2 s
  | .movr bb a1 a2 => Sys2Proof.Machine.execMovr bb a1 a2 s
  | .radd bb a1 a2 => Sys2Proof.Machine.execRadd bb a1 a2 s
  | .rsub bb a1 a2 => Sys2Proof.Machine.execRsub bb a1 a2 s
  | .rmul bb a1 a2 => Sys2Proof.Machine.execRmul bb a1 a2 s
  | .rdiv bb a1 a2 => Sys2Proof.Machine.execRdiv bb a1 a2 s
  | .rin bb a1 a2 => Sys2Proof.Machine.execRin bb a1 a2 s
  | .rout bb a1 a2 => Sys2Proof.Machine.execRout bb a1 a2 s
  | .jz bb a1 a2 => Sys2Proof.Machine.execJz bb a1 a2 s
  | .jg bb a1 a2 => Sys2Proof.Machine.execJg bb a1 a2 s
  | .jl bb a1 a2 => Sys2Proof.Machine.execJl bb a1 a2 s
  | .load bb a1 a2 => Sys2Proof.Machine.execLoad bb a1 a2 s
  | .store bb a1 a2 => Sys2Proof.Machine.execStore bb a1 a2 s

end Sys2Proof.Machine
end

