-- ==== Sys2Proof/Machine/Fetch.lean ====
section
/-! DEFINITION. Fetch, discrimination and dispatch: stages 1 to 3 of the step (40_fetch_decode_dispatch.md). -/

namespace Sys2Proof.Machine

/-- Stage 1: the IP check, which a 16-bit IP always passes, then an ordinary word read at IP (R111). -/
def fetchWord (s : State) : Except Err Word :=
  if isValidAddress s.ip.toNat then memRead s.mem s.ip else .error (.invalidIP s.ip)

/-- Stages 2 and 3: a word with top byte 0 is data unless `ZERO_OPCODE_FETCH = Stop` (R112); an opcode absent from the
dispatch table is illegal (R113). -/
def discriminate (cfg : Config) (w : Word) : Except Err Instr :=
  if opField w = 0#8 ∧ cfg.zeroOpcodeFetch = .invalidOpcode then .error (.invalidOpcode w)
  else
    match decodeWord w with
    | .ok i => .ok i
    | .error _ => .error (.invalidOpcode w)

/-- The instruction that the next step runs, or the error its fetch raises (R111 to R113). -/
def fetchInstr (s : State) : Except Err Instr :=
  match fetchWord s with
  | .ok w => discriminate s.cfg w
  | .error e => .error e

/-- The state from which the next step runs the instruction whose word is `w`: its four bytes stand at IP. A word with
top byte 0 is an instruction only under `ZERO_OPCODE_FETCH = Stop` (R112), so for such a word that parameter is
selected (log entry 3). Where no window fits at IP, nothing changes. -/
def placeWord (s : State) (w : Word) : State :=
  match memWrite s.mem s.ip w with
  | .ok m =>
    if opField w = 0#8 then { s.withMem m with cfg := { s.cfg with zeroOpcodeFetch := .stop } } else s.withMem m
  | .error _ => s

end Sys2Proof.Machine
end

