-- ==== Sys2Proof/Machine/Step.lean ====
section
/-! DEFINITION. One step (40_fetch_decode_dispatch.md R116), and a run of steps. -/

namespace Sys2Proof.Machine

/-- One step (R116): none is defined while `stop` or `error` is set, nor before the first Reset (R110); a fetch that
raises ends the step with the effects of 60_exceptions.md R243; otherwise the fetched instruction runs to completion
(R114, R115). -/
def step (s : State) : Host.Outcome State Fault Refusal :=
  if s.stop || s.error then .fault .halted
  else if s.resetDone then
    match fetchInstr s with
    | .error e => .next (s.raise e)
    | .ok i => exec i s
  else .fault .notReset

/-- `Run`: repeat the step while one is defined, at most `k` times (R110). -/
def run : Nat → State → State
  | 0, s => s
  | k + 1, s =>
    match step s with
    | .next t => run k t
    | .fault _ => s
    | .refused _ => s

/-- The instruction whose bits are the `nbits` low bits of `w`, stored where the next step fetches (log entry 3). -/
def State.withFetchWord (s : State) (nbits w : Nat) : State := placeWord s (BitVec.ofNat 32 (w % 2 ^ nbits))

end Sys2Proof.Machine
end

