-- ==== Sys2Proof/Machine/Loader.lean ====
section
/-! DEFINITION. The textual loader and boot (70_reset_and_hazards.md R273 to R278): software outside the block, which
fills memory through the Preload port and supplies the entry point (00_scope.md R4). A program file is a list of lines,
a line a list of characters. -/

namespace Sys2Proof.Machine

/-! ## Directives -/

/-- A directive with its parsed arguments (70_reset_and_hazards.md R275). -/
inductive Directive where
  /-- `a <hex>`: set the cursor. -/
  | a (v : Nat)
  /-- `e <hex>`: record the entry point. -/
  | e (v : Nat)
  /-- `i <dec>`: an integer word. -/
  | i (v : Int)
  /-- `r <dec>`: a float word, already rounded to its bits. -/
  | r (bits : Word)
  /-- `k <op> <bb> <a1> <a2>`: a command word. -/
  | k (op bb a1 a2 : Nat)
  /-- `s`: end of program. -/
  | s
  deriving DecidableEq, Repr

/-- The message of a ParseError, one for each violation of 70_reset_and_hazards.md R277 (DESIGN CHOICE, log entry 17). Of
several violations on one line the first of these is reported (DESIGN CHOICE, log entry 22). -/
inductive ParseReason where
  | unknownDirective
  | wrongArgumentCount
  | badNumber
  | outOfRange
  | writeOutOfBounds
  | entryUnset
  | endOfFile
  deriving DecidableEq, Repr

/-- ParseError: "carrying line number, raw line, and message" (60_exceptions.md R242). -/
structure ParseError where
  /-- The line's number, counted from 1 (R274). -/
  line : Nat
  /-- The line as read. -/
  raw : List Char
  /-- The message. -/
  reason : ParseReason
  deriving DecidableEq, Repr

/-- The loader's state: the memory written so far, the write cursor and the optional entry (R275). -/
structure LoaderState where
  /-- Memory as far as written. -/
  mem : Memory
  /-- The cursor `cur`. -/
  cur : Nat
  /-- The entry `ent`. -/
  ent : Option Addr
  deriving DecidableEq, Repr

/-- `write_word(cur, w); cur <- cur + 1`; a write out of bounds is a violation (R275). -/
def LoaderState.writeWord (st : LoaderState) (w : Word) : Except ParseReason LoaderState :=
  match preloadWriteWord st.mem st.cur w with
  | some m => .ok { st with mem := m, cur := st.cur + 1 }
  | none => .error .writeOutOfBounds

/-- What a directive leads to. -/
inductive Progress where
  /-- The next line is read. -/
  | more (st : LoaderState)
  /-- `s`: the program ends, with this entry point. -/
  | finished (st : LoaderState) (entry : Addr)
  deriving DecidableEq, Repr

/-- The effect of a directive (R275, R276). A value outside its range is reported before a write out of bounds
(DESIGN CHOICE, log entry 22). -/
def applyDirective (st : LoaderState) : Directive → Except ParseReason Progress
  | .a v => if v < 65536 then .ok (.more { st with cur := v }) else .error .outOfRange
  | .e v => if v < 65536 then .ok (.more { st with ent := some (BitVec.ofNat 16 v) }) else .error .outOfRange
  | .i v =>
    if -(2 ^ 31) ≤ v ∧ v < 2 ^ 31 then
      match st.writeWord (trunc32 v) with
      | .ok st' => .ok (.more st')
      | .error x => .error x
    else .error .outOfRange
  | .r bits =>
    match st.writeWord bits with
    | .ok st' => .ok (.more st')
    | .error x => .error x
  | .k op bb a1 a2 =>
    if op ≤ 0x45 ∧ bb ≤ 3 ∧ a1 < 65536 ∧ a2 < 65536 then
      match st.writeWord (packWord (BitVec.ofNat 8 op) (BitVec.ofNat 2 bb) (BitVec.ofNat 12 a1) (BitVec.ofNat 10 a2)) with
      | .ok st' => .ok (.more st')
      | .error x => .error x
    else .error .outOfRange
  | .s =>
    match st.ent with
    | some entry => .ok (.finished st entry)
    | none => .error .entryUnset

/-! ## Lines -/

/-- The value of a hexadecimal digit, either case. -/
def hexDigit (c : Char) : Option Nat :=
  if '0' ≤ c ∧ c ≤ '9' then some (c.toNat - '0'.toNat)
  else if 'a' ≤ c ∧ c ≤ 'f' then some (c.toNat - 'a'.toNat + 10)
  else if 'A' ≤ c ∧ c ≤ 'F' then some (c.toNat - 'A'.toNat + 10)
  else none

/-- The value of a digit string read on from `acc`; none if a character is no digit of the base. -/
def digitsFrom (base acc : Nat) : List Char → Option Nat
  | [] => some acc
  | c :: cs =>
    match hexDigit c with
    | some d => if d < base then digitsFrom base (acc * base + d) cs else none
    | none => none

/-- A nonempty digit string in a base. -/
def parseNat (base : Nat) (t : List Char) : Option Nat :=
  match t with
  | [] => none
  | _ :: _ => digitsFrom base 0 t

/-- A decimal integer with an optional sign (log entry 16). -/
def parseInt (t : List Char) : Option Int :=
  match t with
  | '-' :: ds => (parseNat 10 ds).map (fun n => -(n : Int))
  | '+' :: ds => (parseNat 10 ds).map (fun n => (n : Int))
  | ds => (parseNat 10 ds).map (fun n => (n : Int))

/-- The tokens of a line, separated by white space; `word` is the token being read, reversed. -/
def tokensFrom (word : List Char) : List Char → List (List Char)
  | [] => if word.isEmpty then [] else [word.reverse]
  | c :: cs =>
    if c.isWhitespace then (if word.isEmpty then tokensFrom [] cs else word.reverse :: tokensFrom [] cs)
    else tokensFrom (c :: word) cs

/-- Strip everything after `#`, then split at white space (R274). -/
def lineTokens (line : List Char) : List (List Char) := tokensFrom [] (line.takeWhile (fun c => c != '#'))

/-- One parsed argument. -/
def oneArg {α : Type} (parse : List Char → Option α) (make : α → Directive) (args : List (List Char)) :
    Except ParseReason Directive :=
  match args with
  | [t] => match parse t with
    | some v => .ok (make v)
    | none => .error .badNumber
  | _ => .error .wrongArgumentCount

/-! ### Decimal literals -/

/-- A decimal literal: the number `digits * 10^exp`, negated if `neg`. -/
structure Decimal where
  /-- The literal has a minus sign. -/
  neg : Bool
  /-- All its digits, the point left out. -/
  digits : Nat
  /-- The power of ten they count. -/
  exp : Int
  deriving DecidableEq, Repr

/-- A decimal literal's digits with their point: the digits as one number and how many stand after the point. -/
def parseMantissa (t : List Char) : Option (Nat × Nat) :=
  match t.takeWhile (fun c => c != '.'), t.dropWhile (fun c => c != '.') with
  | whole, [] => (parseNat 10 whole).map (fun n => (n, 0))
  | whole, _ :: frac => (parseNat 10 (whole ++ frac)).map (fun n => (n, frac.length))

/-- An exponent part: nothing, or `e` and a decimal integer. -/
def parseExponent (t : List Char) : Option Int :=
  match t with
  | [] => some 0
  | _ :: ds => parseInt ds

/-- A decimal literal after its sign. -/
def parseUnsigned (neg : Bool) (t : List Char) : Option Decimal :=
  let isE := fun c : Char => c == 'e' || c == 'E'
  match parseMantissa (t.takeWhile (fun c => !isE c)), parseExponent (t.dropWhile (fun c => !isE c)) with
  | some (n, places), some ex => some { neg := neg, digits := n, exp := ex - places }
  | _, _ => none

/-- A decimal literal with an optional sign (log entry 16). -/
def parseDecimal (t : List Char) : Option Decimal :=
  match t with
  | '-' :: ds => parseUnsigned true ds
  | '+' :: ds => parseUnsigned false ds
  | ds => parseUnsigned false ds

/-- Bits 30:0 of `p / q` units of 2^-149 rounded to binary32: the value itself where binary32 has it, else the
neighbour that `up` chooses. -/
def literalMag (up : Bool) (p q : Nat) : Nat :=
  let c := cutMag p q
  if c.below < infMag ∧ c.rest = 0 then c.below else min c.below (infMag - 1) + up.toNat

/-- `bits32(value rounded to binary32)` for a literal read from the text `t` (R275). A value that binary32 has is exact;
which neighbour any other value is rounded to is the loader's, a free value (93_implementation_defined.md X13, log
entry 16). -/
def literalBits (t : List Char) (d : Decimal) : Word :=
  packFloat d.neg
    (literalMag (Config.literalRoundsUp t) (d.digits * 10 ^ d.exp.toNat * 2 ^ 149) (10 ^ (-d.exp).toNat))

/-- The bits of an `r` argument, none for text that is no decimal number (R275, R277). -/
def parseFloat (t : List Char) : Option Word := (parseDecimal t).map (literalBits t)

/-! ### Directives of lines -/

/-- The directive of a line, none for an empty one; names are case-insensitive (R274, R275, R277). The name is checked
before the number of arguments, and that before the arguments (DESIGN CHOICE, log entry 22). -/
def parseLine (line : List Char) : Except ParseReason (Option Directive) :=
  match lineTokens line with
  | [] => .ok none
  | name :: args =>
    match name.map Char.toLower with
    | ['a'] => (oneArg (parseNat 16) .a args).map some
    | ['e'] => (oneArg (parseNat 16) .e args).map some
    | ['i'] => (oneArg parseInt .i args).map some
    | ['r'] => (oneArg parseFloat .r args).map some
    | ['k'] =>
      match args with
      | [op, bb, a1, a2] =>
        match parseNat 16 op, parseNat 16 bb, parseNat 16 a1, parseNat 16 a2 with
        | some op, some bb, some a1, some a2 => .ok (some (.k op bb a1 a2))
        | _, _, _, _ => .error .badNumber
      | _ => .error .wrongArgumentCount
    | ['s'] => if args.isEmpty then .ok (some .s) else .error .wrongArgumentCount
    | _ => .error .unknownDirective

/-- How loading ends: with the entry point, or with a ParseError (R275, R277). -/
inductive LoadOutcome where
  | entry (a : Addr)
  | failed (e : ParseError)
  deriving DecidableEq, Repr

/-- Read the lines in order, `n` the number of the next one. Memory is left as far as it was written (R277); lines
after `s` are not read (R275); the end of the file before `s` is a violation (R277). -/
def loadFrom : Nat → List (List Char) → LoaderState → Memory × LoadOutcome
  | n, [], st => (st.mem, .failed { line := n, raw := [], reason := .endOfFile })
  | n, raw :: rest, st =>
    match parseLine raw with
    | .error reason => (st.mem, .failed { line := n, raw := raw, reason := reason })
    | .ok none => loadFrom (n + 1) rest st
    | .ok (some d) =>
      match applyDirective st d with
      | .error reason => (st.mem, .failed { line := n, raw := raw, reason := reason })
      | .ok (.more st') => loadFrom (n + 1) rest st'
      | .ok (.finished st' entry) => (st'.mem, .entry entry)

/-- The loader over a program file: the cursor starts at 0, no entry is set, lines count from 1 (R274, R275). -/
def loadLines (lines : List (List Char)) (m : Memory) : Memory × LoadOutcome :=
  loadFrom 1 lines { mem := m, cur := 0, ent := none }

/-! ## Boot -/

/-- How boot ends. -/
inductive BootOutcome where
  /-- Reset done: the first step may run. -/
  | ready (s : State)
  /-- "Loader errors prevent execution from starting": no Reset follows (R273, R277). -/
  | failed (e : ParseError) (mem : Memory)
  deriving DecidableEq, Repr

/-- Boot a created processor: load, and only if that succeeded, Reset with the entry point (R273). -/
def boot (lines : List (List Char)) (s : State) : BootOutcome :=
  match loadLines lines s.mem with
  | (m, .entry a) => .ready ((s.withMem m).resetTo a)
  | (m, .failed e) => .failed e m

end Sys2Proof.Machine
end

