-- ==== Sys2Proof/Safety.lean ====
section
/-! DEFINITION. What counts as a consistent state and as a finished run, and the terms the statements use. -/

namespace Sys2Proof.Machine

/-! ## Runs -/

/-- `stop` or `error` is set: no step is defined (40_fetch_decode_dispatch.md R110). -/
def State.terminal (s : State) : Bool := s.stop || s.error

/-- The instruction is waiting for the host: its destination resolves, and its request has no answer
(43_io.md R180). -/
def waitsForHost (i : Instr) (s : State) : Bool :=
  match i with
  | .iin bb a1 _ => (ea1 s bb a1).toBool && s.intIn.isEmpty
  | .rin bb a1 _ => (ea1 s bb a1).toBool && s.floatIn.isEmpty
  | .stop _ _ _ | .iadd _ _ _ | .isub _ _ _ | .imul _ _ _ | .idiv _ _ _ | .iout _ _ _ | .addr _ _ _ | .subr _ _ _
  | .movr _ _ _ | .radd _ _ _ | .rsub _ _ _ | .rmul _ _ _ | .rdiv _ _ _ | .rout _ _ _ | .jz _ _ _ | .jg _ _ _
  | .jl _ _ _ | .load _ _ _ | .store _ _ _ => false

/-- The pending request of 10_state.md R34 (b), computed from the state: the machine is inside an IIN or RIN that the
host has not answered. -/
def State.waiting (s : State) : Bool :=
  s.resetDone && !s.terminal &&
    match fetchInstr s with
    | .ok i => waitsForHost i s
    | .error _ => false

/-- The outcome of a run at a state (40_fetch_decode_dispatch.md R121); `running` at every later step is its
non-terminating outcome. -/
inductive RunStatus where
  /-- No Reset yet, so no run. -/
  | notStarted
  | stopped
  | faulted (kind : ErrKind)
  | waiting
  | running
  deriving DecidableEq, Repr

/-- The outcome of a run at a state (R121). -/
def State.status (s : State) : RunStatus :=
  if s.error then .faulted s.err else if s.stop then .stopped else if !s.resetDone then .notStarted
  else if s.waiting then .waiting else .running

/-! ## The invariant of every state a run reaches -/

/-- Memory is canonical; ERR is `none` exactly while `error` is false (10_state.md R30), and then the diagnostic is
empty; `stop` and `error` are never both set (40_fetch_decode_dispatch.md R121). -/
abbrev State.Inv (s : State) : Prop :=
  s.mem.wf = true ∧ (s.err = .none ↔ s.error = false) ∧ (s.error = false → s.errInfo = .none) ∧
    ¬(s.stop = true ∧ s.error = true)

/-! ## Terms of the statements -/

/-- The window of a word access at `a` lies in memory (20_memory.md R51). -/
abbrev WindowFits (a : Addr) : Prop := a.toNat + 3 ≤ 0xFFFF

/-- The word at `e` in `t` is `w`, and every byte outside the window of `e` is as in `s`. -/
def StoredOnly (s t : State) (e : Addr) (w : Word) : Prop :=
  t.mem.wordAt e.toNat = w ∧
    ∀ x : Nat, (x < e.toNat ∨ e.toNat + 3 < x) → t.mem.byteAt x = s.mem.byteAt x

/-- IP is one further, modulo 65536 (10_state.md R25). -/
def Advanced (s t : State) : Prop := t.ip.toNat = (s.ip.toNat + 1) % 65536

/-- Both operand addresses of a class M2 instruction resolve and both windows lie in memory: the conditions under
which its operand sequence completes (40_fetch_decode_dispatch.md R119). -/
def OperandsAt (s : State) (bb : Mode) (a1 : Addr1) (a2 : Addr2) (e1 e2 : Addr) : Prop :=
  ea1 s bb a1 = .ok e1 ∧ ea2 s bb a1 a2 = .ok e2 ∧ WindowFits e1 ∧ WindowFits e2

/-- A class M2 instruction completed: it stored `w` at `e` and nowhere else, its flags are `f`, IP advanced, and nothing
else changed. -/
def CompletedStore (s t : State) (e : Addr) (w : Word) (f : Flags) : Prop :=
  StoredOnly s t e w ∧ Advanced s t ∧ t = { s with mem := t.mem, flags := f, ip := t.ip }

/-- The errors of a class M2 instruction, each reported where every check before it has passed
(40_fetch_decode_dispatch.md R119, 60_exceptions.md R244): the register index, the first window, the second. -/
def TwoOperandErrors (make : Mode → Addr1 → Addr2 → Instr) : Prop :=
  ∀ (bb : Mode) (a1 : Addr1) (a2 : Addr2) (s : State),
    (bb.resolves → 2 ≤ (a1Index a1).toNat →
      exec (make bb a1 a2) s = .next (s.raise (.invalidRegister (a1Index a1)))) ∧
    ∀ e1 e2 : Addr, ea1 s bb a1 = .ok e1 → ea2 s bb a1 a2 = .ok e2 →
      (¬WindowFits e1 → exec (make bb a1 a2) s = .next (s.raise (.outOfBounds e1))) ∧
      (WindowFits e1 → ¬WindowFits e2 → exec (make bb a1 a2) s = .next (s.raise (.outOfBounds e2)))

/-- A conditional jump whose test on the flags is `taken` (44_control_flow.md R200): not taken, it only advances;
taken, it raises InvalidRegister where its target does not resolve, and else goes to the target, one further under
`JUMP_ADVANCE`. Nothing but IP changes. -/
def JumpRule (make : Mode → Addr1 → Addr2 → Instr) (taken : Flags → Prop) : Prop :=
  ∀ (bb : Mode) (a1 : Addr1) (a2 : Addr2) (s : State),
    (¬taken s.flags → ∃ t, exec (make bb a1 a2) s = .next t ∧ Advanced s t ∧ t = { s with ip := t.ip }) ∧
    (taken s.flags → bb.resolves → 2 ≤ (a1Index a1).toNat →
      exec (make bb a1 a2) s = .next (s.raise (.invalidRegister (a1Index a1)))) ∧
    ∀ target : Addr, taken s.flags → ea1 s bb a1 = .ok target →
      ∃ t, exec (make bb a1 a2) s = .next t ∧ t = { s with ip := t.ip } ∧
        t.ip.toNat = if s.cfg.jumpAdvance = true then (target.toNat + 1) % 65536 else target.toNat

/-- The address an instruction stores to, where it resolves: `EA1` for the arithmetic and input instructions, the
absolute `A1` for STORE, none for the rest (20_memory.md R60). -/
def storeAddress (i : Instr) (s : State) : Option Addr :=
  match i with
  | .iadd bb a1 _ | .isub bb a1 _ | .imul bb a1 _ | .idiv bb a1 _ | .radd bb a1 _ | .rsub bb a1 _ | .rmul bb a1 _
  | .rdiv bb a1 _ | .iin bb a1 _ | .rin bb a1 _ => (ea1 s bb a1).toOption
  | .store _ a1 _ => some (zextA1 a1)
  | .stop _ _ _ | .iout _ _ _ | .rout _ _ _ | .jz _ _ _ | .jg _ _ _ | .jl _ _ _ | .load _ _ _ | .addr _ _ _
  | .subr _ _ _ | .movr _ _ _ => none

/-- The instruction is arithmetic: the flag writers of 10_state.md R26. -/
def writesFlags : Instr → Bool
  | .iadd _ _ _ | .isub _ _ _ | .imul _ _ _ | .idiv _ _ _ | .radd _ _ _ | .rsub _ _ _ | .rmul _ _ _ | .rdiv _ _ _
  | .addr _ _ _ | .subr _ _ _ => true
  | .stop _ _ _ | .iin _ _ _ | .rin _ _ _ | .iout _ _ _ | .rout _ _ _ | .jz _ _ _ | .jg _ _ _ | .jl _ _ _
  | .load _ _ _ | .store _ _ _ | .movr _ _ _ => false

/-- The register an instruction writes: the writers of 10_state.md R23. -/
def writtenRegister : Instr → Option RegIndex
  | .load _ a1 _ | .addr _ a1 _ | .subr _ a1 _ | .movr _ a1 _ => some (a1Index a1)
  | .stop _ _ _ | .iadd _ _ _ | .isub _ _ _ | .imul _ _ _ | .idiv _ _ _ | .radd _ _ _ | .rsub _ _ _ | .rmul _ _ _
  | .rdiv _ _ _ | .iin _ _ _ | .rin _ _ _ | .iout _ _ _ | .rout _ _ _ | .jz _ _ _ | .jg _ _ _ | .jl _ _ _
  | .store _ _ _ => none

/-- The instruction is STOP or a jump that the flags take: the exceptions of 40_fetch_decode_dispatch.md R117. The tests
are those of 44_control_flow.md R201 to R203, in the flags. -/
def leavesStraightLine (i : Instr) (s : State) : Bool :=
  match i with
  | .stop _ _ _ => true
  | .jz _ _ _ => !s.flags.s && !s.flags.v && !s.flags.z && !s.flags.c
  | .jg _ _ _ => !s.flags.s && (s.flags.v || s.flags.z || s.flags.c)
  | .jl _ _ _ => s.flags.s
  | .iadd _ _ _ | .isub _ _ _ | .imul _ _ _ | .idiv _ _ _ | .radd _ _ _ | .rsub _ _ _ | .rmul _ _ _ | .rdiv _ _ _
  | .iin _ _ _ | .rin _ _ _ | .iout _ _ _ | .rout _ _ _ | .load _ _ _ | .addr _ _ _ | .subr _ _ _ | .movr _ _ _
  | .store _ _ _ => false

/-- The table of 60_exceptions.md R241: which error kinds an instruction can raise once it is fetched, a jump only when
it is taken. -/
def mayRaise (i : Instr) (s : State) (k : ErrKind) : Prop :=
  match i with
  | .stop _ _ _ => False
  | .iadd bb _ _ | .isub bb _ _ | .imul bb _ _ | .radd bb _ _ | .rsub bb _ _ | .rmul bb _ _ | .iout bb _ _
  | .rout bb _ _ => k = .outOfBounds ∨ (k = .invalidRegister ∧ bb.resolves)
  | .idiv bb _ _ | .rdiv bb _ _ => k = .outOfBounds ∨ (k = .invalidRegister ∧ bb.resolves) ∨ k = .divByZero
  | .iin bb _ _ | .rin bb _ _ => k = .outOfBounds ∨ (k = .invalidRegister ∧ bb.resolves) ∨ k = .ioError
  | .jz bb _ _ | .jg bb _ _ | .jl bb _ _ => k = .invalidRegister ∧ bb.resolves ∧ leavesStraightLine i s = true
  | .load _ _ _ | .store _ _ _ | .addr _ _ _ | .subr _ _ _ | .movr _ _ _ => k = .invalidRegister

/-! ## Loading -/

/-- The word that a word directive writes, none for the other directives and for values out of range
(70_reset_and_hazards.md R275, R276; the packing of 30_encoding.md R81 written out). -/
def directiveWord : Directive → Option Word
  | .i v => if -(2 ^ 31) ≤ v ∧ v < 2 ^ 31 then some (BitVec.ofInt 32 v) else none
  | .r bits => some bits
  | .k op bb a1 a2 =>
    if op ≤ 0x45 ∧ bb ≤ 3 ∧ a1 < 65536 ∧ a2 < 65536 then
      some (BitVec.ofNat 32 (op * 2 ^ 24 + bb * 2 ^ 22 + a1 % 2 ^ 12 * 2 ^ 10 + a2 % 2 ^ 10))
    else none
  | .a _ | .e _ | .s => none

/-- Directives one after the other, up to `s` or a violation. -/
def applyDirectives (st : LoaderState) : List Directive → Except ParseReason LoaderState
  | [] => .ok st
  | d :: ds =>
    match applyDirective st d with
    | .ok (.more st') => applyDirectives st' ds
    | .ok (.finished st' _) => .ok st'
    | .error reason => .error reason

/-! ## Floating-point results -/

/-- The distance of the finite pattern `u` from `p / q`, times `q`: both in units of 2^-149. -/
def scaledDistance (u p q : Nat) : Nat := (magUnits u * q - p) + (p - magUnits u * q)

/-- `w` is the binary32 value nearest to the magnitude `p / q` units of 2^-149 with sign `neg`, under
round-to-nearest, ties to even (42_float_arith.md R165): infinity from the midpoint above the greatest finite value
on, else a finite pattern at least as near as every other, and even where another is as near. -/
def NearestEven (neg : Bool) (p q : Nat) (w : Word) : Prop :=
  signBit w = neg ∧
    if q * ((2 ^ 25 - 1) * 2 ^ 252) ≤ p then magBits w = infMag
    else
      magBits w < infMag ∧
        ∀ u : Nat, u < infMag →
          scaledDistance (magBits w) p q ≤ scaledDistance u p q ∧
            (scaledDistance u p q = scaledDistance (magBits w) p q → u = magBits w ∨ magBits w % 2 = 0)

/-- A pattern is a NaN: its bits 30:0 lie above those of infinity. -/
abbrev NanPattern (w : Word) : Prop := infMag < magBits w

/-- A pattern is an infinity. -/
abbrev InfPattern (w : Word) : Prop := magBits w = infMag

/-- A NaN result: the pattern that `FP_NAN` chooses, and a NaN (42_float_arith.md R165). -/
def NanResult (op : FloatOp) (a b r : Word) : Prop := r = fpNan op a b ∧ NanPattern r

/-- `r` is `bits32(fadd(a, b))` (42_float_arith.md R161, R165). -/
def FloatAddRule (a b r : Word) : Prop :=
  if NanPattern a ∨ NanPattern b ∨ (InfPattern a ∧ InfPattern b ∧ signBit a ≠ signBit b) then NanResult .add a b r
  else if InfPattern a then r = a
  else if InfPattern b then r = b
  else if units a + units b = 0 then magBits r = 0 ∧ signBit r = (signBit a && signBit b)
  else NearestEven (decide (units a + units b < 0)) (units a + units b).natAbs 1 r

/-- `r` is `bits32(fsub(a, b))` (42_float_arith.md R162, R165). -/
def FloatSubRule (a b r : Word) : Prop :=
  if NanPattern a ∨ NanPattern b ∨ (InfPattern a ∧ InfPattern b ∧ signBit a = signBit b) then NanResult .sub a b r
  else if InfPattern a then r = a
  else if InfPattern b then InfPattern r ∧ signBit r = !signBit b
  else if units a - units b = 0 then magBits r = 0 ∧ signBit r = (signBit a && !signBit b)
  else NearestEven (decide (units a - units b < 0)) (units a - units b).natAbs 1 r

/-- `r` is `bits32(fmul(a, b))` (42_float_arith.md R163, R165). The product of two values is their units' product
over 2^149 units. -/
def FloatMulRule (a b r : Word) : Prop :=
  if NanPattern a ∨ NanPattern b ∨ (InfPattern a ∧ magBits b = 0) ∨ (magBits a = 0 ∧ InfPattern b) then
    NanResult .mul a b r
  else if InfPattern a ∨ InfPattern b then InfPattern r ∧ signBit r = (signBit a != signBit b)
  else NearestEven (signBit a != signBit b) (absUnits a * absUnits b) (2 ^ 149) r

/-- `r` is `bits32(fdiv(a, b))` for a divisor that is not zero (42_float_arith.md R164, R165). The quotient of two
values is 2^149 times the quotient of their units, in units. -/
def FloatDivRule (a b r : Word) : Prop :=
  if NanPattern a ∨ NanPattern b ∨ (InfPattern a ∧ InfPattern b) then NanResult .div a b r
  else if InfPattern a then InfPattern r ∧ signBit r = (signBit a != signBit b)
  else if InfPattern b then magBits r = 0 ∧ signBit r = (signBit a != signBit b)
  else NearestEven (signBit a != signBit b) (absUnits a * 2 ^ 149) (absUnits b) r

/-- The flags of a float result (42_float_arith.md R160): S for a negative number or infinity, Z for a zero of either
sign, none for a NaN; C and V clear. -/
def numericFlags (r : Word) : Flags :=
  { s := decide (signBit r = true ∧ 0 < magBits r ∧ ¬NanPattern r), z := decide (magBits r = 0), v := false, c := false }

end Sys2Proof.Machine
end

