-- ==== Sys2Proof/Certificates/Slice0/Obligations.lean ====
section
/-! DEFINITION. The statements for the provers. -/

open Sys2Proof Sys2Proof.Machine

/-! ## Encoding -/

/-- Decoding the bytes of any instruction, whatever follows them, gives the instruction back and leaves the rest
(30_encoding.md section 1; every operand at every value the encoding admits, the ignored fields included). -/
def Obligations.DecodeInvertsEncode : Prop :=
  ∀ (i : Instr) (rest : List Byte), decodeBytes (encodeBytes i ++ rest) = .ok (i, rest)

/-- Every word that decodes is the word of the instruction it decodes to: no two instructions share a word and no bit
of a legal word is lost (30_encoding.md section 1). -/
def Obligations.EncodeInvertsDecode : Prop :=
  ∀ (w : Word) (i : Instr), decodeWord w = .ok i → encode i = w

/-- R81: packing is the shift-and-or formula with the high bits of wide addresses dropped, and the field readers give
the kept bits back. -/
def Obligations.PackingKeepsTheFieldBits : Prop :=
  ∀ op bb a1 a2 : Nat, op < 256 →
    let w := packWord (BitVec.ofNat 8 op) (BitVec.ofNat 2 bb) (BitVec.ofNat 12 a1) (BitVec.ofNat 10 a2)
    w.toNat = (op <<< 24) ||| ((bb &&& 3) <<< 22) ||| ((a1 &&& 0xFFF) <<< 10) ||| (a2 &&& 0x3FF) ∧
      (opField w).toNat = op ∧ (bbField w).toNat = bb &&& 3 ∧ (a1Field w).toNat = a1 &&& 0xFFF ∧
      (a2Field w).toNat = a2 &&& 0x3FF

/-- The dispatch table has exactly the 21 opcodes, each selecting its own instruction by the opcode byte alone
(30_encoding.md section 3). -/
def Obligations.OpcodeMapIsTheTable : Prop :=
  opcodeTable.map (fun row => row.opcode) =
      [0x00#8, 0x01#8, 0x02#8, 0x03#8, 0x04#8, 0x11#8, 0x12#8, 0x14#8, 0x15#8, 0x16#8, 0x21#8, 0x22#8, 0x23#8, 0x24#8,
        0x31#8, 0x32#8, 0x41#8, 0x42#8, 0x43#8, 0x44#8, 0x45#8] ∧
    ∀ (bb : Mode) (a1 : Addr1) (a2 : Addr2),
      opcodeTable.map (fun row => row.make bb a1 a2) =
        [.stop bb a1 a2, .iadd bb a1 a2, .isub bb a1 a2, .imul bb a1 a2, .idiv bb a1 a2, .iin bb a1 a2, .iout bb a1 a2,
          .addr bb a1 a2, .subr bb a1 a2, .movr bb a1 a2, .radd bb a1 a2, .rsub bb a1 a2, .rmul bb a1 a2,
          .rdiv bb a1 a2, .rin bb a1 a2, .rout bb a1 a2, .jz bb a1 a2, .jg bb a1 a2, .jl bb a1 a2, .load bb a1 a2,
          .store bb a1 a2] ∧
      opcodeTable.map (fun row => opField (encode (row.make bb a1 a2))) = opcodeTable.map (fun row => row.opcode) ∧
      ∀ row ∈ opcodeTable, decodeWord (packWord row.opcode bb.bits a1 a2) = .ok (row.make bb a1 a2)

/-- A few words written out from the encoding decode to the instructions they stand for (30_encoding.md sections 1 to
4; the words of 95_test_vectors.md). -/
def Obligations.SampleWordsDecode : Prop :=
  decodeWord 0x01040101#32 = .ok (.iadd .absolute 0x100#12 0x101#10) ∧
    decodeWord 0x12C40400#32 = .ok (.iout .indirectDisp 0x101#12 0x000#10) ∧
    decodeWord 0x41801400#32 = .ok (.jz .indirect 0x005#12 0x000#10) ∧
    decodeWord 0x440007FF#32 = .ok (.load .absolute 0x001#12 0x3FF#10) ∧
    decodeWord 0x45053401#32 = .ok (.store .absolute 0x14D#12 0x001#10) ∧
    decodeWord 0x24040104#32 = .ok (.rdiv .absolute 0x100#12 0x104#10) ∧
    decodeWord 0x13000000#32 = .error (.absentOpcode 0x13000000#32)

/-- R85: ignored fields and bits change nothing: any two instructions of a class that agree on the fields the class
reads have the same meaning. -/
def Obligations.IgnoredFieldsChangeNothing : Prop :=
  ∀ (bb bb' : Mode) (a1 a1' : Addr1) (a2 a2' : Addr2) (s : State),
    exec (.stop bb a1 a2) s = exec (.stop bb' a1' a2') s ∧
    exec (.iin bb a1 a2) s = exec (.iin bb a1 a2') s ∧ exec (.iout bb a1 a2) s = exec (.iout bb a1 a2') s ∧
    exec (.rin bb a1 a2) s = exec (.rin bb a1 a2') s ∧ exec (.rout bb a1 a2) s = exec (.rout bb a1 a2') s ∧
    exec (.jz bb a1 a2) s = exec (.jz bb a1 a2') s ∧ exec (.jg bb a1 a2) s = exec (.jg bb a1 a2') s ∧
    exec (.jl bb a1 a2) s = exec (.jl bb a1 a2') s ∧
    (a1Index a1 = a1Index a1' → exec (.load bb a1 a2) s = exec (.load bb' a1' a2) s) ∧
    (a2Index a2 = a2Index a2' → exec (.store bb a1 a2) s = exec (.store bb' a1 a2') s) ∧
    (a1Index a1 = a1Index a1' → a2Index a2 = a2Index a2' →
      exec (.addr bb a1 a2) s = exec (.addr bb' a1' a2') s ∧ exec (.subr bb a1 a2) s = exec (.subr bb' a1' a2') s ∧
      exec (.movr bb a1 a2) s = exec (.movr bb' a1' a2') s)

/-! ## Memory -/

/-- R51: a word access is legal iff `a + 3` stays in memory, computed without wrap, and an illegal one raises
OutOfBounds with its address, read and write alike. -/
def Obligations.WordAccessBounds : Prop :=
  ∀ (m : Memory) (a : Addr) (v : Word),
    (a.toNat + 3 < 65536 → (∃ w, memRead m a = .ok w) ∧ ∃ m', memWrite m a v = .ok m') ∧
    (¬a.toNat + 3 < 65536 → memRead m a = .error (.outOfBounds a) ∧ memWrite m a v = .error (.outOfBounds a))

/-- The word primitives (20_memory.md section 2): a word read is the little-endian sum of its four bytes; a word
written leaves its bytes in that order, reads back, and leaves every other byte. -/
def Obligations.WordsAreLittleEndian : Prop :=
  (∀ (m : Memory) (a : Addr) (w : Word), memRead m a = .ok w →
    w.toNat = (m.byteAt a.toNat).toNat + 2 ^ 8 * (m.byteAt (a.toNat + 1)).toNat +
      2 ^ 16 * (m.byteAt (a.toNat + 2)).toNat + 2 ^ 24 * (m.byteAt (a.toNat + 3)).toNat) ∧
  ∀ (m m' : Memory) (a : Addr) (v : Word), memWrite m a v = .ok m' →
    (m'.byteAt a.toNat).toNat = v.toNat % 2 ^ 8 ∧ (m'.byteAt (a.toNat + 1)).toNat = v.toNat / 2 ^ 8 % 2 ^ 8 ∧
      (m'.byteAt (a.toNat + 2)).toNat = v.toNat / 2 ^ 16 % 2 ^ 8 ∧
      (m'.byteAt (a.toNat + 3)).toNat = v.toNat / 2 ^ 24 ∧ memRead m' a = .ok v ∧
      ∀ x : Nat, (x < a.toNat ∨ a.toNat + 3 < x) → m'.byteAt x = m.byteAt x

/-- No alignment is asked of a word access (20_memory.md section 3), and after a write at `a` and a write at `a + 1`
the byte at `a` is the first write's and the word at `a + 1` the second's. -/
def Obligations.OverlappingWindowsKeepTheLastWrite : Prop :=
  ∀ (m : Memory) (a b : Addr) (v w : Word), b.toNat = a.toNat + 1 → b.toNat + 3 < 65536 →
    ∃ m1 m2, memWrite m a v = .ok m1 ∧ memWrite m1 b w = .ok m2 ∧ (m2.byteAt a.toNat).toNat = v.toNat % 2 ^ 8 ∧
      memRead m2 b = .ok w ∧ ∃ x, memRead m2 a = .ok x ∧ x.toNat = v.toNat % 2 ^ 8 + 2 ^ 8 * (w.toNat % 2 ^ 24)

/-- Canonical memories that read alike at every address are equal (the model's representation, log entry 10; the array
is 20_memory.md section 1). -/
def Obligations.CanonicalMemoriesReadingAlikeAreEqual : Prop :=
  ∀ m m' : Memory, m.wf = true → m'.wf = true → (∀ a : Nat, m.byteAt a = m'.byteAt a) → m = m'

/-- The Preload port's byte accesses fault exactly at invalid addresses and move one byte; `clear` zeroes every byte
(20_memory.md section 3). -/
def Obligations.PreloadPortMovesBytes : Prop :=
  (∀ (m : Memory) (a : Nat) (v : Byte),
    (65536 ≤ a → preloadReadByte m a = none ∧ preloadWriteByte m a v = none) ∧
    (a < 65536 → preloadReadByte m a = some (m.byteAt a) ∧
      ∃ m', preloadWriteByte m a v = some m' ∧ ∀ x : Nat, m'.byteAt x = if x = a then v else m.byteAt x)) ∧
  ∀ (m : Memory) (x : Nat), (preloadClear m).byteAt x = 0#8

/-- Overlapping fetch windows (30_encoding.md section 6): the instruction word one byte further on shares three bytes
with this one, so its mode and the high half of its first address are this one's opcode. -/
def Obligations.FetchWindowsShareThreeBytes : Prop :=
  ∀ (m : Memory) (k : Nat),
    (m.wordAt (k + 1)).toNat % 2 ^ 24 = (m.wordAt k).toNat / 2 ^ 8 ∧
      (bbField (m.wordAt (k + 1))).toNat = (opField (m.wordAt k)).toNat / 2 ^ 6 ∧
      (a1Field (m.wordAt (k + 1))).toNat / 2 ^ 6 = (opField (m.wordAt k)).toNat % 2 ^ 6 ∧
      (opField (m.wordAt (k + 1))) = m.byteAt (k + 4)

/-! ## Address resolution -/

/-- R90, R92, R93: the effective address in each mode, as a sum modulo 2^16; the index is resolved in modes 10 and 11
alone, and an index of 2..7 raises InvalidRegister there. `EA1` and `EA2` are that function of the zero-extended `A1`
and `A2`, both with the index `A1[2:0]`, so one resolves wherever the other does, and in mode 10 they are the same. -/
def Obligations.EffectiveAddressByMode : Prop :=
  ∀ (s : State) (addr : Addr) (r : RegIndex),
    effAddr s .absolute addr r = .ok addr ∧
    (∃ a : Addr, effAddr s .dispR0 addr r = .ok a ∧ (a.toNat : Int) = ((addr.toNat : Int) + s.r0.toInt) % 65536) ∧
    (∀ x : Word, (r.toNat = 0 ∧ x = s.r0 ∨ r.toNat = 1 ∧ x = s.r1) →
      (∃ a : Addr, effAddr s .indirect addr r = .ok a ∧ (a.toNat : Int) = x.toInt % 65536) ∧
      ∃ a : Addr, effAddr s .indirectDisp addr r = .ok a ∧ (a.toNat : Int) = ((addr.toNat : Int) + x.toInt) % 65536) ∧
    (2 ≤ r.toNat → effAddr s .indirect addr r = .error (.invalidRegister r) ∧
      effAddr s .indirectDisp addr r = .error (.invalidRegister r)) ∧
    ∀ (bb : Mode) (a1 : Addr1) (a2 : Addr2) (addr2 : Addr), addr.toNat = a1.toNat → addr2.toNat = a2.toNat →
      r.toNat = a1.toNat % 8 →
      ea1 s bb a1 = effAddr s bb addr r ∧ ea2 s bb a1 a2 = effAddr s bb addr2 r ∧
        ((∃ e, ea1 s bb a1 = .ok e) ↔ ∃ e, ea2 s bb a1 a2 = .ok e) ∧
        (bb = .indirect → ea1 s bb a1 = ea2 s bb a1 a2)

/-! ## The step -/

/-- A step runs the decoded instruction: where a step is defined, the window at IP lies in memory and its four bytes
decode to `i` (whose top byte is nonzero, or `ZERO_OPCODE_FETCH = Stop`), the step is `exec i`. Nothing is added
around it: the meanings advance IP themselves (40_fetch_decode_dispatch.md section 1). -/
def Obligations.StepRunsTheDecodedInstruction : Prop :=
  ∀ (s : State) (i : Instr), s.resetDone = true → s.stop = false → s.error = false → s.ip.toNat + 3 < 65536 →
    decodeBytes [s.mem.byteAt s.ip.toNat, s.mem.byteAt (s.ip.toNat + 1), s.mem.byteAt (s.ip.toNat + 2),
      s.mem.byteAt (s.ip.toNat + 3)] = .ok (i, []) →
    (s.mem.byteAt (s.ip.toNat + 3) ≠ 0#8 ∨ s.cfg.zeroOpcodeFetch = .stop) → step s = exec i s

/-- No step is defined in a state with `stop` or `error` set: the step answers no next state
(40_fetch_decode_dispatch.md section 1; that it answers the fault `halted` is the model's choice, log entry 7). -/
def Obligations.TerminalStatesHaveNoStep : Prop :=
  ∀ s : State, (s.stop = true ∨ s.error = true) → step s = .fault .halted

/-- Wherever a step is defined it answers a next state: no instruction faults or is refused, errors included
(40_fetch_decode_dispatch.md section 1, 60_exceptions.md section 2; for an unanswered input request this rests on the
model's choice of log entry 6). -/
def Obligations.EveryDefinedStepAnswersANextState : Prop :=
  ∀ s : State, s.resetDone = true → s.stop = false → s.error = false → ∃ t, step s = .next t

/-- R112: a fetched word with top byte 0 raises InvalidOpcode under the default, and executes as STOP under the other
setting. -/
def Obligations.ZeroTopByteFetch : Prop :=
  ∀ (s : State) (w : Word), s.resetDone = true → s.stop = false → s.error = false → memRead s.mem s.ip = .ok w →
    opField w = 0#8 →
    (s.cfg.zeroOpcodeFetch = .invalidOpcode → step s = .next (s.raise (.invalidOpcode w))) ∧
    (s.cfg.zeroOpcodeFetch = .stop → step s = .next { s with stop := true })

/-- R87, R113: an opcode byte of the listed ranges raises InvalidOpcode with the word, and any other nonzero opcode
byte runs the instruction whose word it is. -/
def Obligations.AbsentOpcodesRaiseInvalidOpcode : Prop :=
  ∀ (s : State) (w : Word), s.resetDone = true → s.stop = false → s.error = false → memRead s.mem s.ip = .ok w →
    opField w ≠ 0#8 →
    let n := (opField w).toNat
    if (0x05 ≤ n ∧ n ≤ 0x10) ∨ n = 0x13 ∨ (0x17 ≤ n ∧ n ≤ 0x20) ∨ (0x25 ≤ n ∧ n ≤ 0x30) ∨ (0x33 ≤ n ∧ n ≤ 0x40) ∨
        0x46 ≤ n then
      step s = .next (s.raise (.invalidOpcode w))
    else ∃ i, encode i = w ∧ step s = exec i s

/-- R111: the fetch is the word read at IP; it raises OutOfBounds(IP) exactly from 0xFFFD on, and never InvalidIP. -/
def Obligations.FetchPastTheEndIsOutOfBounds : Prop :=
  ∀ s : State,
    (0xFFFD ≤ s.ip.toNat → fetchWord s = .error (.outOfBounds s.ip) ∧
      (s.resetDone = true → s.stop = false → s.error = false → step s = .next (s.raise (.outOfBounds s.ip)))) ∧
    (s.ip.toNat < 0xFFFD → ∃ w, fetchWord s = .ok w ∧ memRead s.mem s.ip = .ok w) ∧
    ∀ a : Addr, fetchInstr s ≠ .error (.invalidIP a)

/-! ## Errors and whole-machine rules -/

/-- The table of 60_exceptions.md section 1: an instruction raises only the error kinds its row names, a jump only
when taken; a fetch raises OutOfBounds, from 0xFFFD on alone, or InvalidOpcode. -/
def Obligations.ErrorKindsFollowTheTable : Prop :=
  (∀ (i : Instr) (s t : State), s.error = false → exec i s = .next t → t.error = true → mayRaise i s t.err) ∧
    ∀ (s : State) (e : Err), fetchInstr s = .error e →
      (e.kind = .outOfBounds ∧ 0xFFFD ≤ s.ip.toNat) ∨ e.kind = .invalidOpcode

/-- Errors are precise: after a step that sets `error`, the state is the one before it except for `error`, ERR, the
diagnostic and host answers already consumed (60_exceptions.md section 2; the diagnostic and the queues are the
model's, log entries 5 and 8). IP still holds the failing instruction's address. -/
def Obligations.ErrorsArePrecise : Prop :=
  ∀ s t : State, step s = .next t → t.error = true →
    t.err ≠ .none ∧
      t = { s with error := true, err := t.err, errInfo := t.errInfo, intIn := t.intIn, floatIn := t.floatIn }

/-- A step that leaves `stop` set ran STOP, changed nothing else, and left `error` clear (10_state.md section 5). -/
def Obligations.StopIsSetOnlyByStop : Prop :=
  ∀ s t : State, step s = .next t → t.stop = true →
    t.error = false ∧ t = { s with stop := true } ∧ ∃ bb a1 a2, fetchInstr s = .ok (.stop bb a1 a2)

/-- Only the ten arithmetic instructions write flags, and none of them does so when it raises an error (10_state.md
section 4). -/
def Obligations.FlagsAreWrittenOnlyByArithmetic : Prop :=
  ∀ (i : Instr) (s t : State), s.error = false → exec i s = .next t → (writesFlags i = false ∨ t.error = true) →
    t.flags = s.flags

/-- Registers are written only by LOAD, ADDR, SUBR and MOVR, and only the destination register (10_state.md section
2). -/
def Obligations.RegistersAreWrittenOnlyByTheirInstructions : Prop :=
  ∀ (i : Instr) (s t : State), exec i s = .next t →
    (writtenRegister i ≠ some 0#3 → t.r0 = s.r0) ∧ (writtenRegister i ≠ some 1#3 → t.r1 = s.r1)

/-- Memory changes only in the window an instruction stores to, at the address its meaning computes; an instruction
that stores nothing leaves every byte (20_memory.md section 5). -/
def Obligations.MemoryChangesOnlyInTheStoredWindow : Prop :=
  ∀ (i : Instr) (s t : State), exec i s = .next t →
    (∀ a : Addr, storeAddress i s = some a →
      ∀ x : Nat, (x < a.toNat ∨ a.toNat + 3 < x) → t.mem.byteAt x = s.mem.byteAt x) ∧
    (storeAddress i s = none → ∀ x : Nat, t.mem.byteAt x = s.mem.byteAt x)

/-- OUT only grows, by at most one event a step, and only IOUT and ROUT add one (43_io.md section 1). -/
def Obligations.OutputOnlyGrows : Prop :=
  ∀ (i : Instr) (s t : State), exec i s = .next t →
    t.out = s.out ∨ ∃ e, t.out = s.out ++ [e] ∧ ∃ bb a1 a2, i = .iout bb a1 a2 ∨ i = .rout bb a1 a2

/-- Host answers are consumed one at a time from the front, integers by IIN and floats by RIN alone, and no step
changes the parameters (43_io.md section 2; the queues and the parameters in the state are the model's, log entries 1
and 5). -/
def Obligations.HostAnswersAreConsumedInOrder : Prop :=
  ∀ (i : Instr) (s t : State), exec i s = .next t →
    t.cfg = s.cfg ∧
    (t.intIn = s.intIn ∨ (∃ x, s.intIn = x :: t.intIn) ∧ ∃ bb a1 a2, i = .iin bb a1 a2) ∧
    (t.floatIn = s.floatIn ∨ (∃ x, s.floatIn = x :: t.floatIn) ∧ ∃ bb a1 a2, i = .rin bb a1 a2)

/-- IP monotonicity (40_fetch_decode_dispatch.md section 1): every completed instruction other than a taken jump and
STOP advances IP by one, modulo 65536. (An input instruction that still waits has not completed: the model's choice,
log entry 6.) -/
def Obligations.CompletedInstructionsAdvanceIp : Prop :=
  ∀ (i : Instr) (s t : State), s.error = false → exec i s = .next t → t.error = false → waitsForHost i s = false →
    leavesStraightLine i s = false → t.ip.toNat = (s.ip.toNat + 1) % 65536

/-- The invariant of every state that a Reset over canonical memory leads to is kept by every step: canonical memory
(the model's representation, log entry 10), ERR `none` exactly while `error` is false (10_state.md section 5), the
diagnostic empty while `error` is false (the model's choice, log entry 8), `stop` and `error` never both
(40_fetch_decode_dispatch.md section 3). -/
def Obligations.StepKeepsTheInvariant : Prop :=
  ∀ s t : State, s.Inv → step s = .next t → t.Inv

/-- The invariant holds after every Reset over canonical memory, whatever the entry and the rest of the state; so it
holds of the state that boot makes ready from canonical memory, and of `State.reset`, which is Reset with entry 0 over
zero memory (the model's choice, log entry 2). Canonical memory and the empty diagnostic are the model's (log entries
10 and 8). -/
def Obligations.ResetHasTheInvariant : Prop :=
  (∀ (s : State) (entry : Addr), s.mem.wf = true → (s.resetTo entry).Inv) ∧
    (∀ (lines : List (List Char)) (s t : State), s.mem.wf = true → boot lines s = .ready t → t.Inv) ∧ State.reset.Inv

/-- The codes of ERR (60_exceptions.md section 1). -/
def Obligations.ErrorCodes : Prop :=
  ErrKind.code .none = 0#3 ∧ (∀ a, (Err.outOfBounds a).kind.code = 1#3) ∧ (∀ a, (Err.invalidIP a).kind.code = 2#3) ∧
    (∀ w, (Err.invalidOpcode w).kind.code = 3#3) ∧ (∀ i, (Err.invalidRegister i).kind.code = 4#3) ∧
    (∀ a, (Err.divByZero a).kind.code = 5#3) ∧ Err.ioError.kind.code = 6#3

/-! ## Integer arithmetic -/

/-- R140: IADD stores the wrapped sum at EA1, sets the four flags by the add formulas, and raises its errors in
order. -/
def Obligations.IaddStoresTheSum : Prop :=
  (∀ (bb : Mode) (a1 : Addr1) (a2 : Addr2) (s : State) (e1 e2 : Addr), OperandsAt s bb a1 a2 e1 e2 →
    let a := s.mem.wordAt e1.toNat
    let b := s.mem.wordAt e2.toNat
    let res := BitVec.ofInt 32 (a.toInt + b.toInt)
    ∃ t, exec (.iadd bb a1 a2) s = .next t ∧
      CompletedStore s t e1 res
        { s := decide (res.toInt < 0)
          z := decide (res.toInt = 0)
          c := if s.cfg.carryAdd = .wrap32 then res.msb else decide (0x7FFFFFFF < a.toNat + b.toNat)
          v := decide ((a.toInt > 0 ∧ b.toInt > 0 ∧ res.toInt < 0) ∨ (a.toInt < 0 ∧ b.toInt < 0 ∧ res.toInt > 0)) }) ∧
  TwoOperandErrors .iadd ∧ ∀ bb a1 a2, opField (encode (.iadd bb a1 a2)) = 0x01#8

/-- R141: ISUB stores the wrapped difference at EA1, sets the four flags by the subtract formulas, and raises its
errors in order. -/
def Obligations.IsubStoresTheDifference : Prop :=
  (∀ (bb : Mode) (a1 : Addr1) (a2 : Addr2) (s : State) (e1 e2 : Addr), OperandsAt s bb a1 a2 e1 e2 →
    let a := s.mem.wordAt e1.toNat
    let b := s.mem.wordAt e2.toNat
    let res := BitVec.ofInt 32 (a.toInt - b.toInt)
    ∃ t, exec (.isub bb a1 a2) s = .next t ∧
      CompletedStore s t e1 res
        { s := decide (res.toInt < 0)
          z := decide (res.toInt = 0)
          c := decide (a.toNat < b.toNat)
          v := decide ((a.toInt > 0 ∧ b.toInt < 0 ∧ res.toInt < 0) ∨ (a.toInt < 0 ∧ b.toInt > 0 ∧ res.toInt > 0)) }) ∧
  TwoOperandErrors .isub ∧ ∀ bb a1 a2, opField (encode (.isub bb a1 a2)) = 0x02#8

/-- R142: IMUL stores the low word of the product at EA1; V is the divide-back check, guarded by a nonzero second
operand, C is 0; its errors come in order and DivByZero is not among them. -/
def Obligations.ImulStoresTheLowProduct : Prop :=
  (∀ (bb : Mode) (a1 : Addr1) (a2 : Addr2) (s : State) (e1 e2 : Addr), OperandsAt s bb a1 a2 e1 e2 →
    let a := s.mem.wordAt e1.toNat
    let b := s.mem.wordAt e2.toNat
    let res := BitVec.ofInt 32 (a.toInt * b.toInt)
    ∃ t, exec (.imul bb a1 a2) s = .next t ∧
      CompletedStore s t e1 res
        { s := decide (res.toInt < 0)
          z := decide (res.toInt = 0)
          c := false
          v := decide (b ≠ 0#32 ∧ (BitVec.ofInt 32 (res.toInt.tdiv b.toInt)).toInt ≠ a.toInt) }) ∧
  TwoOperandErrors .imul ∧ ∀ bb a1 a2, opField (encode (.imul bb a1 a2)) = 0x03#8

/-- R143: IDIV stores the quotient rounded toward zero at EA1, C and V clear; a zero divisor raises DivByZero at the
divisor's address after the operand checks. -/
def Obligations.IdivStoresTheQuotient : Prop :=
  (∀ (bb : Mode) (a1 : Addr1) (a2 : Addr2) (s : State) (e1 e2 : Addr), OperandsAt s bb a1 a2 e1 e2 →
    let a := s.mem.wordAt e1.toNat
    let b := s.mem.wordAt e2.toNat
    let res := BitVec.ofInt 32 (a.toInt.tdiv b.toInt)
    (b ≠ 0#32 → ∃ t, exec (.idiv bb a1 a2) s = .next t ∧
      CompletedStore s t e1 res
        { s := decide (res.toInt < 0), z := decide (res.toInt = 0), c := false, v := false }) ∧
    (b = 0#32 → exec (.idiv bb a1 a2) s = .next (s.raise (.divByZero e2)))) ∧
  TwoOperandErrors .idiv ∧ ∀ bb a1 a2, opField (encode (.idiv bb a1 a2)) = 0x04#8

/-! ## Floating-point arithmetic -/

/-- RADD stores the binary32 sum at EA1, rounded to nearest even, with S and Z from it and C and V clear; its errors
come in order (42_float_arith.md sections 1 and 2; the results that the spec leaves to IEEE-754 are log entry 13). -/
def Obligations.RaddStoresTheRoundedSum : Prop :=
  (∀ (bb : Mode) (a1 : Addr1) (a2 : Addr2) (s : State) (e1 e2 : Addr), OperandsAt s bb a1 a2 e1 e2 →
    ∃ t r, exec (.radd bb a1 a2) s = .next t ∧ FloatAddRule (s.mem.wordAt e1.toNat) (s.mem.wordAt e2.toNat) r ∧
      CompletedStore s t e1 r (numericFlags r)) ∧
  TwoOperandErrors .radd ∧ ∀ bb a1 a2, opField (encode (.radd bb a1 a2)) = 0x21#8

/-- RSUB stores the binary32 difference at EA1, rounded to nearest even, with S and Z from it and C and V clear; its
errors come in order (42_float_arith.md sections 1 and 2; the results that the spec leaves to IEEE-754 are log entry
13). -/
def Obligations.RsubStoresTheRoundedDifference : Prop :=
  (∀ (bb : Mode) (a1 : Addr1) (a2 : Addr2) (s : State) (e1 e2 : Addr), OperandsAt s bb a1 a2 e1 e2 →
    ∃ t r, exec (.rsub bb a1 a2) s = .next t ∧ FloatSubRule (s.mem.wordAt e1.toNat) (s.mem.wordAt e2.toNat) r ∧
      CompletedStore s t e1 r (numericFlags r)) ∧
  TwoOperandErrors .rsub ∧ ∀ bb a1 a2, opField (encode (.rsub bb a1 a2)) = 0x22#8

/-- RMUL stores the binary32 product at EA1, rounded to nearest even, with S and Z from it and C and V clear; its
errors come in order (42_float_arith.md sections 1 and 2; the results that the spec leaves to IEEE-754 are log entry
13). -/
def Obligations.RmulStoresTheRoundedProduct : Prop :=
  (∀ (bb : Mode) (a1 : Addr1) (a2 : Addr2) (s : State) (e1 e2 : Addr), OperandsAt s bb a1 a2 e1 e2 →
    ∃ t r, exec (.rmul bb a1 a2) s = .next t ∧ FloatMulRule (s.mem.wordAt e1.toNat) (s.mem.wordAt e2.toNat) r ∧
      CompletedStore s t e1 r (numericFlags r)) ∧
  TwoOperandErrors .rmul ∧ ∀ bb a1 a2, opField (encode (.rmul bb a1 a2)) = 0x23#8

/-- RDIV stores the binary32 quotient at EA1, rounded to nearest even, with S and Z from it and C and V clear; a
divisor of either zero raises DivByZero at its address after the operand checks; its errors come in order
(42_float_arith.md sections 1 and 2; the results that the spec leaves to IEEE-754 are log entry 13). -/
def Obligations.RdivStoresTheRoundedQuotient : Prop :=
  (∀ (bb : Mode) (a1 : Addr1) (a2 : Addr2) (s : State) (e1 e2 : Addr), OperandsAt s bb a1 a2 e1 e2 →
    (magBits (s.mem.wordAt e2.toNat) ≠ 0 →
      ∃ t r, exec (.rdiv bb a1 a2) s = .next t ∧ FloatDivRule (s.mem.wordAt e1.toNat) (s.mem.wordAt e2.toNat) r ∧
        CompletedStore s t e1 r (numericFlags r)) ∧
    (magBits (s.mem.wordAt e2.toNat) = 0 → exec (.rdiv bb a1 a2) s = .next (s.raise (.divByZero e2)))) ∧
  TwoOperandErrors .rdiv ∧ ∀ bb a1 a2, opField (encode (.rdiv bb a1 a2)) = 0x24#8

/-! ## Console input and output -/

/-- IIN with an answer of the host at the front of its queue (the queue is the model's, log entry 5): an integer is
stored at EA1 and consumed; a failure raises IOError, and a destination out of bounds OutOfBounds, the answer
consumed; an unresolved register raises InvalidRegister and consumes none (43_io.md section 2). -/
def Obligations.IinStoresTheHostsInteger : Prop :=
  ∀ (bb : Mode) (a1 : Addr1) (a2 : Addr2) (s : State),
    (bb.resolves → 2 ≤ (a1Index a1).toNat →
      exec (.iin bb a1 a2) s = .next (s.raise (.invalidRegister (a1Index a1)))) ∧
    ∀ e1 : Addr, ea1 s bb a1 = .ok e1 →
      (∀ (n : Word) (rest : List IntAnswer), s.intIn = .int n :: rest → WindowFits e1 →
        ∃ t, exec (.iin bb a1 a2) s = .next t ∧ StoredOnly s t e1 n ∧ Advanced s t ∧
          t = { s with mem := t.mem, intIn := rest, ip := t.ip }) ∧
      (∀ (n : Word) (rest : List IntAnswer), s.intIn = .int n :: rest → ¬WindowFits e1 →
        exec (.iin bb a1 a2) s = .next (State.raise { s with intIn := rest } (.outOfBounds e1))) ∧
      ∀ rest : List IntAnswer, s.intIn = .fail :: rest →
        exec (.iin bb a1 a2) s = .next (State.raise { s with intIn := rest } .ioError)

/-- RIN with an answer of the host at the front of its queue (the queue is the model's, log entry 5): the same with
the float's bits (43_io.md section 2). -/
def Obligations.RinStoresTheHostsFloat : Prop :=
  ∀ (bb : Mode) (a1 : Addr1) (a2 : Addr2) (s : State),
    (bb.resolves → 2 ≤ (a1Index a1).toNat →
      exec (.rin bb a1 a2) s = .next (s.raise (.invalidRegister (a1Index a1)))) ∧
    ∀ e1 : Addr, ea1 s bb a1 = .ok e1 →
      (∀ (bits : Word) (rest : List FloatAnswer), s.floatIn = .float bits :: rest → WindowFits e1 →
        ∃ t, exec (.rin bb a1 a2) s = .next t ∧ StoredOnly s t e1 bits ∧ Advanced s t ∧
          t = { s with mem := t.mem, floatIn := rest, ip := t.ip }) ∧
      (∀ (bits : Word) (rest : List FloatAnswer), s.floatIn = .float bits :: rest → ¬WindowFits e1 →
        exec (.rin bb a1 a2) s = .next (State.raise { s with floatIn := rest } (.outOfBounds e1))) ∧
      ∀ rest : List FloatAnswer, s.floatIn = .fail :: rest →
        exec (.rin bb a1 a2) s = .next (State.raise { s with floatIn := rest } .ioError)

/-- An input request that the host has not answered leaves the machine where it is, and its status is `waiting` (the
model's choice, log entry 6; 43_io.md section 1 says that the step does not complete). -/
def Obligations.UnansweredInputWaits : Prop :=
  ∀ (bb : Mode) (a1 : Addr1) (a2 : Addr2) (s : State), s.resetDone = true → s.stop = false → s.error = false →
    (fetchInstr s = .ok (.iin bb a1 a2) ∧ s.intIn = [] ∨ fetchInstr s = .ok (.rin bb a1 a2) ∧ s.floatIn = []) →
    (bb.resolves → (a1Index a1).toNat < 2) → step s = .next s ∧ s.status = .waiting

/-- R183: IOUT appends the signed value of the word at EA1 to OUT and advances; it raises InvalidRegister, then
OutOfBounds, and then appends nothing. -/
def Obligations.IoutEmitsTheInteger : Prop :=
  ∀ (bb : Mode) (a1 : Addr1) (a2 : Addr2) (s : State),
    (bb.resolves → 2 ≤ (a1Index a1).toNat →
      exec (.iout bb a1 a2) s = .next (s.raise (.invalidRegister (a1Index a1)))) ∧
    (∀ e1 : Addr, ea1 s bb a1 = .ok e1 →
      (WindowFits e1 → exec (.iout bb a1 a2) s =
        .next { s with out := s.out ++ [.int (s.mem.wordAt e1.toNat).toInt], ip := s.ip + 1#16 }) ∧
      (¬WindowFits e1 → exec (.iout bb a1 a2) s = .next (s.raise (.outOfBounds e1)))) ∧
    opField (encode (.iout bb a1 a2)) = 0x12#8

/-- R185: ROUT appends the raw bits of the word at EA1 to OUT and advances; it raises InvalidRegister, then
OutOfBounds. -/
def Obligations.RoutEmitsTheFloat : Prop :=
  ∀ (bb : Mode) (a1 : Addr1) (a2 : Addr2) (s : State),
    (bb.resolves → 2 ≤ (a1Index a1).toNat →
      exec (.rout bb a1 a2) s = .next (s.raise (.invalidRegister (a1Index a1)))) ∧
    (∀ e1 : Addr, ea1 s bb a1 = .ok e1 →
      (WindowFits e1 → exec (.rout bb a1 a2) s =
        .next { s with out := s.out ++ [.float (s.mem.wordAt e1.toNat)], ip := s.ip + 1#16 }) ∧
      (¬WindowFits e1 → exec (.rout bb a1 a2) s = .next (s.raise (.outOfBounds e1)))) ∧
    opField (encode (.rout bb a1 a2)) = 0x32#8

/-! ## Conditional jumps -/

/-- R201: JZ is taken iff all four flags are 0. -/
def Obligations.JzJumpsOnZeroFlagWord : Prop :=
  JumpRule .jz (fun f => f.s = false ∧ f.v = false ∧ f.z = false ∧ f.c = false) ∧
    ∀ bb a1 a2, opField (encode (.jz bb a1 a2)) = 0x41#8

/-- R202: JG is taken iff S is 0 and one of V, Z, C is 1. -/
def Obligations.JgJumpsOnPositiveFlagWord : Prop :=
  JumpRule .jg (fun f => f.s = false ∧ (f.v = true ∨ f.z = true ∨ f.c = true)) ∧
    ∀ bb a1 a2, opField (encode (.jg bb a1 a2)) = 0x42#8

/-- R203: JL is taken iff S is 1. -/
def Obligations.JlJumpsOnNegativeFlagWord : Prop :=
  JumpRule .jl (fun f => f.s = true) ∧ ∀ bb a1 a2, opField (encode (.jl bb a1 a2)) = 0x43#8

/-- R27: the packed flag word, and its sign. -/
def Obligations.FlagWordPacksTheFlags : Prop :=
  ∀ f : Flags,
    (flagWord f).toNat = f.s.toNat * 2 ^ 15 + f.v.toNat * 2 ^ 11 + f.z.toNat * 2 ^ 10 + f.c.toNat ∧
      ((flagWord f).toInt < 0 ↔ f.s = true)

/-! ## Register operations -/

/-- R220: LOAD writes the word at the absolute address A2 to the register A1[2:0], touches nothing else, and raises
InvalidRegister for an index of 2..7; no address it can name is out of bounds. -/
def Obligations.LoadWritesTheRegister : Prop :=
  ∀ (bb : Mode) (a1 : Addr1) (a2 : Addr2) (s : State),
    ((a1Index a1).toNat = 0 →
      exec (.load bb a1 a2) s = .next { s with r0 := s.mem.wordAt a2.toNat, ip := s.ip + 1#16 }) ∧
    ((a1Index a1).toNat = 1 →
      exec (.load bb a1 a2) s = .next { s with r1 := s.mem.wordAt a2.toNat, ip := s.ip + 1#16 }) ∧
    (2 ≤ (a1Index a1).toNat → exec (.load bb a1 a2) s = .next (s.raise (.invalidRegister (a1Index a1)))) ∧
    opField (encode (.load bb a1 a2)) = 0x44#8

/-- R221: STORE writes the register A2[2:0] to the word at the absolute address A1, touches nothing else, and raises
InvalidRegister for an index of 2..7; no address it can name is out of bounds. -/
def Obligations.StoreWritesTheWord : Prop :=
  ∀ (bb : Mode) (a1 : Addr1) (a2 : Addr2) (s : State),
    (∀ v : Word, ((a2Index a2).toNat = 0 ∧ v = s.r0 ∨ (a2Index a2).toNat = 1 ∧ v = s.r1) →
      ∃ t, exec (.store bb a1 a2) s = .next t ∧ StoredOnly s t (zextA1 a1) v ∧ (zextA1 a1).toNat = a1.toNat ∧
        Advanced s t ∧ t = { s with mem := t.mem, ip := t.ip }) ∧
    (2 ≤ (a2Index a2).toNat → exec (.store bb a1 a2) s = .next (s.raise (.invalidRegister (a2Index a2)))) ∧
    opField (encode (.store bb a1 a2)) = 0x45#8

/-- R222: ADDR writes the wrapped sum to the destination register, the other register and memory unchanged, with the
flags of IADD; `d` is checked before `s`. -/
def Obligations.AddrWritesTheSum : Prop :=
  ∀ (bb : Mode) (a1 : Addr1) (a2 : Addr2) (s : State),
    (∀ a b : Word, regRead s (a1Index a1) = .ok a → regRead s (a2Index a2) = .ok b →
      let res := BitVec.ofInt 32 (a.toInt + b.toInt)
      ∃ t, exec (.addr bb a1 a2) s = .next t ∧ regRead t (a1Index a1) = .ok res ∧
        (a1Index a1 ≠ 0#3 → t.r0 = s.r0) ∧ (a1Index a1 ≠ 1#3 → t.r1 = s.r1) ∧ Advanced s t ∧
        t = { s with
          r0 := t.r0, r1 := t.r1, ip := t.ip
          flags :=
            { s := decide (res.toInt < 0)
              z := decide (res.toInt = 0)
              c := if s.cfg.carryAdd = .wrap32 then res.msb else decide (0x7FFFFFFF < a.toNat + b.toNat)
              v := decide ((a.toInt > 0 ∧ b.toInt > 0 ∧ res.toInt < 0) ∨
                (a.toInt < 0 ∧ b.toInt < 0 ∧ res.toInt > 0)) } }) ∧
    (2 ≤ (a1Index a1).toNat → exec (.addr bb a1 a2) s = .next (s.raise (.invalidRegister (a1Index a1)))) ∧
    ((a1Index a1).toNat < 2 → 2 ≤ (a2Index a2).toNat →
      exec (.addr bb a1 a2) s = .next (s.raise (.invalidRegister (a2Index a2)))) ∧
    opField (encode (.addr bb a1 a2)) = 0x14#8

/-- R223: SUBR writes the wrapped difference to the destination register, the other register and memory unchanged,
with the flags of ISUB; `d` is checked before `s`. -/
def Obligations.SubrWritesTheDifference : Prop :=
  ∀ (bb : Mode) (a1 : Addr1) (a2 : Addr2) (s : State),
    (∀ a b : Word, regRead s (a1Index a1) = .ok a → regRead s (a2Index a2) = .ok b →
      let res := BitVec.ofInt 32 (a.toInt - b.toInt)
      ∃ t, exec (.subr bb a1 a2) s = .next t ∧ regRead t (a1Index a1) = .ok res ∧
        (a1Index a1 ≠ 0#3 → t.r0 = s.r0) ∧ (a1Index a1 ≠ 1#3 → t.r1 = s.r1) ∧ Advanced s t ∧
        t = { s with
          r0 := t.r0, r1 := t.r1, ip := t.ip
          flags :=
            { s := decide (res.toInt < 0)
              z := decide (res.toInt = 0)
              c := decide (a.toNat < b.toNat)
              v := decide ((a.toInt > 0 ∧ b.toInt < 0 ∧ res.toInt < 0) ∨
                (a.toInt < 0 ∧ b.toInt > 0 ∧ res.toInt > 0)) } }) ∧
    (2 ≤ (a1Index a1).toNat → exec (.subr bb a1 a2) s = .next (s.raise (.invalidRegister (a1Index a1)))) ∧
    ((a1Index a1).toNat < 2 → 2 ≤ (a2Index a2).toNat →
      exec (.subr bb a1 a2) s = .next (s.raise (.invalidRegister (a2Index a2)))) ∧
    opField (encode (.subr bb a1 a2)) = 0x15#8

/-- R224: MOVR copies the source register to the destination register and touches nothing else; `d` is checked before
`s`. -/
def Obligations.MovrCopiesTheRegister : Prop :=
  ∀ (bb : Mode) (a1 : Addr1) (a2 : Addr2) (s : State),
    (∀ v : Word, (a1Index a1).toNat < 2 → regRead s (a2Index a2) = .ok v →
      ∃ t, exec (.movr bb a1 a2) s = .next t ∧ regRead t (a1Index a1) = .ok v ∧
        (a1Index a1 ≠ 0#3 → t.r0 = s.r0) ∧ (a1Index a1 ≠ 1#3 → t.r1 = s.r1) ∧ Advanced s t ∧
        t = { s with r0 := t.r0, r1 := t.r1, ip := t.ip }) ∧
    (2 ≤ (a1Index a1).toNat → exec (.movr bb a1 a2) s = .next (s.raise (.invalidRegister (a1Index a1)))) ∧
    ((a1Index a1).toNat < 2 → 2 ≤ (a2Index a2).toNat →
      exec (.movr bb a1 a2) s = .next (s.raise (.invalidRegister (a2Index a2)))) ∧
    opField (encode (.movr bb a1 a2)) = 0x16#8

/-! ## STOP, Reset and boot -/

/-- R120: STOP sets `stop` and changes nothing else, IP included, whatever its fields; its opcode is 0x00, and a
fetched word with that opcode reaches it under `ZERO_OPCODE_FETCH = Stop` alone. -/
def Obligations.StopSetsStopOnly : Prop :=
  ∀ (bb : Mode) (a1 : Addr1) (a2 : Addr2) (s : State),
    exec (.stop bb a1 a2) s = .next { s with stop := true } ∧ opField (encode (.stop bb a1 a2)) = 0x00#8 ∧
      (fetchInstr s = .ok (.stop bb a1 a2) →
        s.cfg.zeroOpcodeFetch = .stop ∧ memRead s.mem s.ip = .ok (encode (.stop bb a1 a2)))

/-- Reset(entry) (70_reset_and_hazards.md section 1) sets IP to the entry, clears the flags, the registers, `stop`,
`error`, ERR and OUT, and keeps memory. A step is defined only after at least one Reset, and is defined right after
each; no step leaves a state with `stop` or `error` set. (That the state records the Reset, and that the step before
it answers the fault `notReset`, are the model's choices, log entry 19.) -/
def Obligations.ResetSetsTheInitialState : Prop :=
  (∀ (s : State) (entry : Addr),
    let t := s.resetTo entry
    t.ip = entry ∧ t.flags = { s := false, c := false, v := false, z := false } ∧ t.r0 = 0#32 ∧ t.r1 = 0#32 ∧
      t.stop = false ∧ t.error = false ∧ t.err = .none ∧ t.out = [] ∧ (∀ a : Nat, t.mem.byteAt a = s.mem.byteAt a) ∧
      t.resetDone = true ∧ ∃ u, step t = .next u) ∧
    (∀ s : State, s.resetDone = false → s.stop = false → s.error = false → step s = .fault .notReset) ∧
    ∀ s t : State, step s = .next t → s.resetDone = true ∧ s.stop = false ∧ s.error = false ∧ t.resetDone = true

/-- Processor creation gives memory and registers 0 (the registers by the table of 10_state.md section 6, log entry
9), no `stop`, no `error`, ERR `none` and OUT empty, and no step is defined there. What it leaves unspecified, IP and
the flags, is not observable: after Reset the state does not depend on them; with entry 0, the default parameters and
no answers (the model's choices, log entries 1, 2 and 5) it is `State.reset` (10_state.md section 6; the fault is the
model's, log entry 19). -/
def Obligations.CreationValuesAreNotObservable : Prop :=
  (∀ (ip : Addr) (f : Flags) (cfg : Config) (ii : List IntAnswer) (fi : List FloatAnswer),
    let s := State.created ip f cfg ii fi
    (∀ a : Nat, s.mem.byteAt a = 0#8) ∧ s.r0 = 0#32 ∧ s.r1 = 0#32 ∧ s.stop = false ∧ s.error = false ∧ s.err = .none ∧
      s.out = [] ∧ step s = .fault .notReset) ∧
  (∀ (ip ip' entry : Addr) (f f' : Flags) (cfg : Config) (ii : List IntAnswer) (fi : List FloatAnswer),
    (State.created ip f cfg ii fi).resetTo entry = (State.created ip' f' cfg ii fi).resetTo entry) ∧
  (∀ (ip : Addr) (f : Flags), (State.created ip f Config.standard [] []).resetTo 0#16 = State.reset) ∧
  ∀ a : Nat, State.reset.mem.byteAt a = 0#8

/-- The loader's stride is one byte for the three word directives `i`, `r` and `k`: each writes its word at the cursor
and moves the cursor on by one, or is a violation where the window leaves memory. After any run of them the cursor is
one byte further for each, every word but the last keeps only its low byte, the last stands whole, and no other byte
has changed (70_reset_and_hazards.md section 2). -/
def Obligations.LoaderStrideIsOneByte : Prop :=
  (∀ (st : LoaderState) (d : Directive) (w : Word), directiveWord d = some w →
    (st.cur + 3 < 65536 → ∃ st', applyDirective st d = .ok (.more st')) ∧
      (65536 ≤ st.cur + 3 → applyDirective st d = .error .writeOutOfBounds)) ∧
  ∀ (st st' : LoaderState) (ds : List Directive) (ws : List Word), ds.map directiveWord = ws.map some →
    applyDirectives st ds = .ok st' →
    st'.cur = st.cur + ws.length ∧ st'.ent = st.ent ∧
      (∀ (j : Nat) (w : Word), j + 1 < ws.length → ws[j]? = some w → st'.mem.byteAt (st.cur + j) = byteOfWord w 0) ∧
      (∀ w : Word, ws.getLast? = some w → st'.mem.wordAt (st.cur + (ws.length - 1)) = w) ∧
      ∀ x : Nat, (x < st.cur ∨ st.cur + ws.length + 2 < x) → st'.mem.byteAt x = st.mem.byteAt x

/-- The word of an `r` directive is `bits32` of its literal's value rounded to binary32 (70_reset_and_hazards.md
section 2): with the literal's value at `p / q` units of 2^-149, no finite pattern lies between it and the word, so a
value that binary32 has is exact; the sign is the literal's (log entry 16, with the grammar of literals and the free
choice between the two neighbours of any other value). -/
def Obligations.LiteralsAreExactWhereBinary32HasTheValue : Prop :=
  ∀ (t : List Char) (d : Decimal) (p q : Nat), parseDecimal t = some d → 0 < q →
    p * 10 ^ (-d.exp).toNat = d.digits * 10 ^ d.exp.toNat * 2 ^ 149 * q →
    ∃ w : Word,
      (∀ line : List Char, (lineTokens line = [['r'], t] ∨ lineTokens line = [['R'], t]) →
        parseLine line = .ok (some (.r w))) ∧
      signBit w = d.neg ∧ magBits w ≤ infMag ∧
      ∀ u : Nat, u < infMag → (magUnits u * q ≤ p → u ≤ magBits w) ∧ (p ≤ magUnits u * q → magBits w ≤ u)

/-- Loading keeps memory canonical, from any memory that is (the model's representation, log entry 10; the loader's
writes are 70_reset_and_hazards.md section 2). -/
def Obligations.LoadingKeepsMemoryCanonical : Prop :=
  ∀ (lines : List (List Char)) (m : Memory), m.wf = true →
    (loadLines lines m).1.wf = true

/-- Boot resets only a loaded processor: it is ready exactly when the loader returned an entry point, and then IP is
that entry over the loaded memory (70_reset_and_hazards.md section 2). -/
def Obligations.BootResetsTheLoadedProcessor : Prop :=
  ∀ (lines : List (List Char)) (s : State),
    (∀ (m : Memory) (a : Addr), loadLines lines s.mem = (m, .entry a) →
      ∃ t, boot lines s = .ready t ∧ t.ip = a ∧ t.mem = m ∧ t.stop = false ∧ t.error = false ∧ t.r0 = 0#32 ∧
        t.r1 = 0#32 ∧ t.flags = Flags.clear) ∧
    ∀ (m : Memory) (e : ParseError), loadLines lines s.mem = (m, .failed e) → boot lines s = .failed e m
end

