-- ==== Sys2Proof/Laws/Memory.lean ====
section
/-! SUPPORT. Reading after writing, the canonical form, and what the checked word accesses answer. -/

namespace Sys2Proof.Machine

/-! ## One byte -/

theorem Memory.byteAt_erase (m : Memory) (a x : Nat) :
    (m.erase a).byteAt x = if x = a then Memory.unlisted else m.byteAt x := by
  induction m with
  | nil => simp [Memory.erase, Memory.byteAt]
  | cons c m ih =>
    by_cases hc : c.1 = a
    · have he : Memory.erase (c :: m) a = Memory.erase m a := by simp [Memory.erase, hc]
      rw [he, ih]
      by_cases hx : x = a
      · simp [hx]
      · have : ¬c.1 = x := fun h => hx (h ▸ hc)
        simp [hx, Memory.byteAt, this]
    · have he : Memory.erase (c :: m) a = c :: Memory.erase m a := by simp [Memory.erase, hc]
      rw [he]
      by_cases hcx : c.1 = x
      · have : ¬x = a := fun h => hc (hcx.trans h)
        simp [Memory.byteAt, hcx, this]
      · simp [Memory.byteAt, hcx, ih]

theorem Memory.byteAt_insert (m : Memory) (a x : Nat) (b : Byte) (h : ∀ c ∈ m, c.1 ≠ a) :
    (m.insert a b).byteAt x = if x = a then b else m.byteAt x := by
  induction m with
  | nil => simp only [Memory.insert, Memory.byteAt, eq_comm]
  | cons c m ih =>
    have hc : c.1 ≠ a := h c (by simp)
    have hm := ih fun d hd => h d (by simp [hd])
    by_cases hlt : a < c.1
    · simp only [Memory.insert, if_pos hlt, Memory.byteAt, eq_comm (a := a)]
    · simp only [Memory.insert, if_neg hlt, Memory.byteAt]
      by_cases hcx : c.1 = x
      · have : ¬x = a := fun hx => hc (hcx.trans hx)
        simp [hcx, this]
      · simp [hcx, hm]

theorem Memory.not_mem_erase (m : Memory) (a : Nat) : ∀ c ∈ m.erase a, c.1 ≠ a := by
  intro c hc
  simpa [Memory.erase] using (List.mem_filter.mp hc).2

/-- Reading after writing one byte, in any list, canonical or not. -/
theorem Memory.byteAt_setByte (m : Memory) (a x : Nat) (b : Byte) :
    (m.setByte a b).byteAt x = if x = a then b else m.byteAt x := by
  unfold Memory.setByte
  split
  · next h => rw [Memory.byteAt_erase, h]
  · rw [Memory.byteAt_insert _ _ _ _ (Memory.not_mem_erase m a), Memory.byteAt_erase]
    split <;> rfl

/-! ## The canonical form -/

theorem Memory.wfFrom_mono {lo lo' : Nat} (m : Memory) (hle : lo ≤ lo') (h : Memory.wfFrom lo' m = true) :
    Memory.wfFrom lo m = true := by
  cases m with
  | nil => rfl
  | cons c m =>
    simp only [Memory.wfFrom, Bool.and_eq_true, decide_eq_true_eq] at h ⊢
    exact ⟨⟨⟨hle.trans h.1.1.1, h.1.1.2⟩, h.1.2⟩, h.2⟩

theorem Memory.wfFrom_erase (m : Memory) (a lo : Nat) (h : Memory.wfFrom lo m = true) :
    Memory.wfFrom lo (m.erase a) = true := by
  induction m generalizing lo with
  | nil => rfl
  | cons c m ih =>
    simp only [Memory.wfFrom, Bool.and_eq_true, decide_eq_true_eq] at h
    by_cases hc : c.1 = a
    · have he : Memory.erase (c :: m) a = Memory.erase m a := by simp [Memory.erase, hc]
      rw [he]
      exact ih lo (Memory.wfFrom_mono m (by omega) h.2)
    · have he : Memory.erase (c :: m) a = c :: Memory.erase m a := by simp [Memory.erase, hc]
      rw [he]
      simp only [Memory.wfFrom, Bool.and_eq_true, decide_eq_true_eq]
      exact ⟨h.1, ih _ h.2⟩

theorem Memory.wfFrom_insert (m : Memory) (a lo : Nat) (b : Byte) (h : Memory.wfFrom lo m = true) (hlo : lo ≤ a)
    (ha : isValidAddress a = true) (hb : b ≠ Memory.unlisted) (hm : ∀ c ∈ m, c.1 ≠ a) :
    Memory.wfFrom lo (m.insert a b) = true := by
  induction m generalizing lo with
  | nil => simp [Memory.insert, Memory.wfFrom, hlo, ha, hb]
  | cons c m ih =>
    simp only [Memory.wfFrom, Bool.and_eq_true, decide_eq_true_eq] at h
    have hc : c.1 ≠ a := hm c (by simp)
    by_cases hlt : a < c.1
    · simp only [Memory.insert, if_pos hlt, Memory.wfFrom, Bool.and_eq_true, decide_eq_true_eq]
      exact ⟨⟨⟨hlo, ha⟩, hb⟩, ⟨⟨hlt, h.1.1.2⟩, h.1.2⟩, h.2⟩
    · simp only [Memory.insert, if_neg hlt, Memory.wfFrom, Bool.and_eq_true, decide_eq_true_eq]
      exact ⟨h.1, ih _ h.2 (by omega) fun d hd => hm d (by simp [hd])⟩

/-- Writing a byte at a valid address keeps the canonical form. -/
theorem Memory.wf_setByte (m : Memory) (a : Nat) (b : Byte) (h : m.wf = true) (ha : a < 65536) :
    (m.setByte a b).wf = true := by
  unfold Memory.setByte
  split
  · exact Memory.wfFrom_erase m a 0 h
  · next hb =>
    exact Memory.wfFrom_insert _ a 0 b (Memory.wfFrom_erase m a 0 h) (by omega) (by simpa [isValidAddress] using ha) hb
      (Memory.not_mem_erase m a)

/-- Storing a word in its window keeps the canonical form. -/
theorem Memory.wf_setWord (m : Memory) (a : Nat) (v : Word) (h : m.wf = true) (ha : a + 3 < 65536) :
    (m.setWord a v).wf = true := by
  unfold Memory.setWord
  exact Memory.wf_setByte _ _ _ (Memory.wf_setByte _ _ _ (Memory.wf_setByte _ _ _ (Memory.wf_setByte _ _ _ h (by omega))
    (by omega)) (by omega)) (by omega)

theorem Memory.wf_clear (m : Memory) : (preloadClear m).wf = true := rfl

/-! ## Words -/

theorem wordOfBytes_bytesOfWord (w : Word) :
    wordOfBytes (byteOfWord w 0) (byteOfWord w 1) (byteOfWord w 2) (byteOfWord w 3) = w := by
  apply BitVec.eq_of_getLsbD_eq
  intro i hi
  simp only [wordOfBytes, byteOfWord, BitVec.getLsbD_append, BitVec.getLsbD_extractLsb']
  have : i < 8 ∨ (8 ≤ i ∧ i < 16) ∨ (16 ≤ i ∧ i < 24) ∨ (24 ≤ i ∧ i < 32) := by omega
  rcases this with h | h | h | h
  · simp [h]
  · have h1 : ¬i < 8 := by omega
    have h2 : i - 8 < 8 := by omega
    have h3 : 8 + (i - 8) = i := by omega
    simp [h1, h2, h3]
  · have h1 : ¬i < 8 := by omega
    have h2 : ¬i - 8 < 8 := by omega
    have h3 : i - 8 - 8 < 8 := by omega
    have h4 : 16 + (i - 8 - 8) = i := by omega
    simp [h1, h2, h3, h4]
  · have h1 : ¬i < 8 := by omega
    have h2 : ¬i - 8 < 8 := by omega
    have h3 : ¬i - 8 - 8 < 8 := by omega
    have h4 : i - 8 - 8 - 8 < 8 := by omega
    have h5 : 24 + (i - 8 - 8 - 8) = i := by omega
    simp [h1, h2, h3, h4, h5]

/-- Reading one byte after storing a word. -/
theorem Memory.byteAt_setWord (m : Memory) (a x : Nat) (v : Word) :
    (m.setWord a v).byteAt x =
      if x = a + 3 then byteOfWord v 3 else if x = a + 2 then byteOfWord v 2
      else if x = a + 1 then byteOfWord v 1 else if x = a then byteOfWord v 0 else m.byteAt x := by
  simp only [Memory.setWord, Memory.byteAt_setByte]

/-- A stored word reads back. -/
@[simp] theorem Memory.wordAt_setWord (m : Memory) (a : Nat) (v : Word) : (m.setWord a v).wordAt a = v := by
  rw [Memory.wordAt]
  simp only [Memory.byteAt_setWord]
  simpa using wordOfBytes_bytesOfWord v

/-- A byte outside the window is as before. -/
theorem Memory.byteAt_setWord_of_outside (m : Memory) (a x : Nat) (v : Word) (h : x < a ∨ a + 3 < x) :
    (m.setWord a v).byteAt x = m.byteAt x := by
  rw [Memory.byteAt_setWord, if_neg (by omega), if_neg (by omega), if_neg (by omega), if_neg (by omega)]

/-! ## What the checked accesses answer -/

theorem memRead_of_fits (m : Memory) {a : Addr} (h : a.toNat + 3 ≤ 0xFFFF) : memRead m a = .ok (m.wordAt a.toNat) := by
  simp [memRead, wordOK, h]

theorem memRead_of_not_fits (m : Memory) {a : Addr} (h : ¬a.toNat + 3 ≤ 0xFFFF) :
    memRead m a = .error (.outOfBounds a) := by
  have : ¬a.toNat ≤ 65532 := by omega
  simp [memRead, wordOK, this]

theorem memWrite_of_fits (m : Memory) {a : Addr} (v : Word) (h : a.toNat + 3 ≤ 0xFFFF) :
    memWrite m a v = .ok (m.setWord a.toNat v) := by
  simp [memWrite, wordOK, h]

theorem memWrite_of_not_fits (m : Memory) {a : Addr} (v : Word) (h : ¬a.toNat + 3 ≤ 0xFFFF) :
    memWrite m a v = .error (.outOfBounds a) := by
  have : ¬a.toNat ≤ 65532 := by omega
  simp [memWrite, wordOK, this]

/-- Everything a word read can answer. -/
theorem memRead_cases (m : Memory) (a : Addr) :
    (a.toNat + 3 ≤ 0xFFFF ∧ memRead m a = .ok (m.wordAt a.toNat)) ∨
      (0xFFFF < a.toNat + 3 ∧ memRead m a = .error (.outOfBounds a)) := by
  by_cases h : a.toNat + 3 ≤ 0xFFFF
  · exact .inl ⟨h, memRead_of_fits m h⟩
  · exact .inr ⟨by omega, memRead_of_not_fits m h⟩

/-- Everything a word write can answer. -/
theorem memWrite_cases (m : Memory) (a : Addr) (v : Word) :
    (a.toNat + 3 ≤ 0xFFFF ∧ memWrite m a v = .ok (m.setWord a.toNat v)) ∨
      (0xFFFF < a.toNat + 3 ∧ memWrite m a v = .error (.outOfBounds a)) := by
  by_cases h : a.toNat + 3 ≤ 0xFFFF
  · exact .inl ⟨h, memWrite_of_fits m v h⟩
  · exact .inr ⟨by omega, memWrite_of_not_fits m v h⟩

/-- A word write that answers keeps the canonical form. -/
theorem memWrite_wf {m m' : Memory} {a : Addr} {v : Word} (h : memWrite m a v = .ok m') (hm : m.wf = true) :
    m'.wf = true := by
  rcases memWrite_cases m a v with ⟨ha, he⟩ | ⟨_, he⟩
  · rw [he] at h; cases h; exact Memory.wf_setWord m _ v hm (by omega)
  · rw [he] at h; cases h

/-- The Preload port's byte write keeps the canonical form. -/
theorem preloadWriteByte_wf {m m' : Memory} {a : Nat} {v : Byte} (h : preloadWriteByte m a v = some m')
    (hm : m.wf = true) : m'.wf = true := by
  unfold preloadWriteByte at h
  split at h
  · next ha => cases h; exact Memory.wf_setByte m a v hm (by simpa [isValidAddress] using ha)
  · cases h

/-- The Preload port's word write keeps the canonical form. -/
theorem preloadWriteWord_wf {m m' : Memory} {a : Nat} {v : Word} (h : preloadWriteWord m a v = some m')
    (hm : m.wf = true) : m'.wf = true := by
  unfold preloadWriteWord at h
  split at h
  · next ha => cases h; exact Memory.wf_setWord m a v hm ha
  · cases h

end Sys2Proof.Machine
end

