-- ==== Sys2Proof/Laws/State.lean ====
section
/-! SUPPORT. One lemma per field per state update, so that no proof unfolds a record update. -/

namespace Sys2Proof.Machine

@[simp] theorem State.withMem_mem (s : State) (m : Memory) : (s.withMem m).mem = m := rfl
@[simp] theorem State.withMem_r0 (s : State) (m : Memory) : (s.withMem m).r0 = s.r0 := rfl
@[simp] theorem State.withMem_r1 (s : State) (m : Memory) : (s.withMem m).r1 = s.r1 := rfl
@[simp] theorem State.withMem_ip (s : State) (m : Memory) : (s.withMem m).ip = s.ip := rfl
@[simp] theorem State.withMem_flags (s : State) (m : Memory) : (s.withMem m).flags = s.flags := rfl
@[simp] theorem State.withMem_stop (s : State) (m : Memory) : (s.withMem m).stop = s.stop := rfl
@[simp] theorem State.withMem_error (s : State) (m : Memory) : (s.withMem m).error = s.error := rfl
@[simp] theorem State.withMem_err (s : State) (m : Memory) : (s.withMem m).err = s.err := rfl
@[simp] theorem State.withMem_out (s : State) (m : Memory) : (s.withMem m).out = s.out := rfl
@[simp] theorem State.withMem_errInfo (s : State) (m : Memory) : (s.withMem m).errInfo = s.errInfo := rfl
@[simp] theorem State.withMem_intIn (s : State) (m : Memory) : (s.withMem m).intIn = s.intIn := rfl
@[simp] theorem State.withMem_floatIn (s : State) (m : Memory) : (s.withMem m).floatIn = s.floatIn := rfl
@[simp] theorem State.withMem_cfg (s : State) (m : Memory) : (s.withMem m).cfg = s.cfg := rfl
@[simp] theorem State.withMem_resetDone (s : State) (m : Memory) : (s.withMem m).resetDone = s.resetDone := rfl

@[simp] theorem State.withFlags_mem (s : State) (f : Flags) : (s.withFlags f).mem = s.mem := rfl
@[simp] theorem State.withFlags_r0 (s : State) (f : Flags) : (s.withFlags f).r0 = s.r0 := rfl
@[simp] theorem State.withFlags_r1 (s : State) (f : Flags) : (s.withFlags f).r1 = s.r1 := rfl
@[simp] theorem State.withFlags_ip (s : State) (f : Flags) : (s.withFlags f).ip = s.ip := rfl
@[simp] theorem State.withFlags_flags (s : State) (f : Flags) : (s.withFlags f).flags = f := rfl
@[simp] theorem State.withFlags_stop (s : State) (f : Flags) : (s.withFlags f).stop = s.stop := rfl
@[simp] theorem State.withFlags_error (s : State) (f : Flags) : (s.withFlags f).error = s.error := rfl
@[simp] theorem State.withFlags_err (s : State) (f : Flags) : (s.withFlags f).err = s.err := rfl
@[simp] theorem State.withFlags_out (s : State) (f : Flags) : (s.withFlags f).out = s.out := rfl
@[simp] theorem State.withFlags_errInfo (s : State) (f : Flags) : (s.withFlags f).errInfo = s.errInfo := rfl
@[simp] theorem State.withFlags_intIn (s : State) (f : Flags) : (s.withFlags f).intIn = s.intIn := rfl
@[simp] theorem State.withFlags_floatIn (s : State) (f : Flags) : (s.withFlags f).floatIn = s.floatIn := rfl
@[simp] theorem State.withFlags_cfg (s : State) (f : Flags) : (s.withFlags f).cfg = s.cfg := rfl
@[simp] theorem State.withFlags_resetDone (s : State) (f : Flags) : (s.withFlags f).resetDone = s.resetDone := rfl

@[simp] theorem State.emit_mem (s : State) (e : OutEvent) : (s.emit e).mem = s.mem := rfl
@[simp] theorem State.emit_r0 (s : State) (e : OutEvent) : (s.emit e).r0 = s.r0 := rfl
@[simp] theorem State.emit_r1 (s : State) (e : OutEvent) : (s.emit e).r1 = s.r1 := rfl
@[simp] theorem State.emit_ip (s : State) (e : OutEvent) : (s.emit e).ip = s.ip := rfl
@[simp] theorem State.emit_flags (s : State) (e : OutEvent) : (s.emit e).flags = s.flags := rfl
@[simp] theorem State.emit_stop (s : State) (e : OutEvent) : (s.emit e).stop = s.stop := rfl
@[simp] theorem State.emit_error (s : State) (e : OutEvent) : (s.emit e).error = s.error := rfl
@[simp] theorem State.emit_err (s : State) (e : OutEvent) : (s.emit e).err = s.err := rfl
@[simp] theorem State.emit_out (s : State) (e : OutEvent) : (s.emit e).out = s.out ++ [e] := rfl
@[simp] theorem State.emit_errInfo (s : State) (e : OutEvent) : (s.emit e).errInfo = s.errInfo := rfl
@[simp] theorem State.emit_intIn (s : State) (e : OutEvent) : (s.emit e).intIn = s.intIn := rfl
@[simp] theorem State.emit_floatIn (s : State) (e : OutEvent) : (s.emit e).floatIn = s.floatIn := rfl
@[simp] theorem State.emit_cfg (s : State) (e : OutEvent) : (s.emit e).cfg = s.cfg := rfl
@[simp] theorem State.emit_resetDone (s : State) (e : OutEvent) : (s.emit e).resetDone = s.resetDone := rfl

@[simp] theorem State.withIntIn_mem (s : State) (rest : List IntAnswer) : (s.withIntIn rest).mem = s.mem := rfl
@[simp] theorem State.withIntIn_r0 (s : State) (rest : List IntAnswer) : (s.withIntIn rest).r0 = s.r0 := rfl
@[simp] theorem State.withIntIn_r1 (s : State) (rest : List IntAnswer) : (s.withIntIn rest).r1 = s.r1 := rfl
@[simp] theorem State.withIntIn_ip (s : State) (rest : List IntAnswer) : (s.withIntIn rest).ip = s.ip := rfl
@[simp] theorem State.withIntIn_flags (s : State) (rest : List IntAnswer) : (s.withIntIn rest).flags = s.flags := rfl
@[simp] theorem State.withIntIn_stop (s : State) (rest : List IntAnswer) : (s.withIntIn rest).stop = s.stop := rfl
@[simp] theorem State.withIntIn_error (s : State) (rest : List IntAnswer) : (s.withIntIn rest).error = s.error := rfl
@[simp] theorem State.withIntIn_err (s : State) (rest : List IntAnswer) : (s.withIntIn rest).err = s.err := rfl
@[simp] theorem State.withIntIn_out (s : State) (rest : List IntAnswer) : (s.withIntIn rest).out = s.out := rfl
@[simp] theorem State.withIntIn_errInfo (s : State) (rest : List IntAnswer) : (s.withIntIn rest).errInfo = s.errInfo := rfl
@[simp] theorem State.withIntIn_intIn (s : State) (rest : List IntAnswer) : (s.withIntIn rest).intIn = rest := rfl
@[simp] theorem State.withIntIn_floatIn (s : State) (rest : List IntAnswer) : (s.withIntIn rest).floatIn = s.floatIn := rfl
@[simp] theorem State.withIntIn_cfg (s : State) (rest : List IntAnswer) : (s.withIntIn rest).cfg = s.cfg := rfl
@[simp] theorem State.withIntIn_resetDone (s : State) (rest : List IntAnswer) : (s.withIntIn rest).resetDone = s.resetDone := rfl

@[simp] theorem State.withFloatIn_mem (s : State) (rest : List FloatAnswer) : (s.withFloatIn rest).mem = s.mem := rfl
@[simp] theorem State.withFloatIn_r0 (s : State) (rest : List FloatAnswer) : (s.withFloatIn rest).r0 = s.r0 := rfl
@[simp] theorem State.withFloatIn_r1 (s : State) (rest : List FloatAnswer) : (s.withFloatIn rest).r1 = s.r1 := rfl
@[simp] theorem State.withFloatIn_ip (s : State) (rest : List FloatAnswer) : (s.withFloatIn rest).ip = s.ip := rfl
@[simp] theorem State.withFloatIn_flags (s : State) (rest : List FloatAnswer) : (s.withFloatIn rest).flags = s.flags := rfl
@[simp] theorem State.withFloatIn_stop (s : State) (rest : List FloatAnswer) : (s.withFloatIn rest).stop = s.stop := rfl
@[simp] theorem State.withFloatIn_error (s : State) (rest : List FloatAnswer) : (s.withFloatIn rest).error = s.error := rfl
@[simp] theorem State.withFloatIn_err (s : State) (rest : List FloatAnswer) : (s.withFloatIn rest).err = s.err := rfl
@[simp] theorem State.withFloatIn_out (s : State) (rest : List FloatAnswer) : (s.withFloatIn rest).out = s.out := rfl
@[simp] theorem State.withFloatIn_errInfo (s : State) (rest : List FloatAnswer) : (s.withFloatIn rest).errInfo = s.errInfo := rfl
@[simp] theorem State.withFloatIn_intIn (s : State) (rest : List FloatAnswer) : (s.withFloatIn rest).intIn = s.intIn := rfl
@[simp] theorem State.withFloatIn_floatIn (s : State) (rest : List FloatAnswer) : (s.withFloatIn rest).floatIn = rest := rfl
@[simp] theorem State.withFloatIn_cfg (s : State) (rest : List FloatAnswer) : (s.withFloatIn rest).cfg = s.cfg := rfl
@[simp] theorem State.withFloatIn_resetDone (s : State) (rest : List FloatAnswer) : (s.withFloatIn rest).resetDone = s.resetDone := rfl

@[simp] theorem State.advance_mem (s : State) : s.advance.mem = s.mem := rfl
@[simp] theorem State.advance_r0 (s : State) : s.advance.r0 = s.r0 := rfl
@[simp] theorem State.advance_r1 (s : State) : s.advance.r1 = s.r1 := rfl
@[simp] theorem State.advance_ip (s : State) : s.advance.ip = s.ip + 1#16 := rfl
@[simp] theorem State.advance_flags (s : State) : s.advance.flags = s.flags := rfl
@[simp] theorem State.advance_stop (s : State) : s.advance.stop = s.stop := rfl
@[simp] theorem State.advance_error (s : State) : s.advance.error = s.error := rfl
@[simp] theorem State.advance_err (s : State) : s.advance.err = s.err := rfl
@[simp] theorem State.advance_out (s : State) : s.advance.out = s.out := rfl
@[simp] theorem State.advance_errInfo (s : State) : s.advance.errInfo = s.errInfo := rfl
@[simp] theorem State.advance_intIn (s : State) : s.advance.intIn = s.intIn := rfl
@[simp] theorem State.advance_floatIn (s : State) : s.advance.floatIn = s.floatIn := rfl
@[simp] theorem State.advance_cfg (s : State) : s.advance.cfg = s.cfg := rfl
@[simp] theorem State.advance_resetDone (s : State) : s.advance.resetDone = s.resetDone := rfl

@[simp] theorem State.jumpTo_mem (s : State) (t : Addr) : (s.jumpTo t).mem = s.mem := rfl
@[simp] theorem State.jumpTo_r0 (s : State) (t : Addr) : (s.jumpTo t).r0 = s.r0 := rfl
@[simp] theorem State.jumpTo_r1 (s : State) (t : Addr) : (s.jumpTo t).r1 = s.r1 := rfl
@[simp] theorem State.jumpTo_ip (s : State) (t : Addr) : (s.jumpTo t).ip = if s.cfg.jumpAdvance then t + 1#16 else t := rfl
@[simp] theorem State.jumpTo_flags (s : State) (t : Addr) : (s.jumpTo t).flags = s.flags := rfl
@[simp] theorem State.jumpTo_stop (s : State) (t : Addr) : (s.jumpTo t).stop = s.stop := rfl
@[simp] theorem State.jumpTo_error (s : State) (t : Addr) : (s.jumpTo t).error = s.error := rfl
@[simp] theorem State.jumpTo_err (s : State) (t : Addr) : (s.jumpTo t).err = s.err := rfl
@[simp] theorem State.jumpTo_out (s : State) (t : Addr) : (s.jumpTo t).out = s.out := rfl
@[simp] theorem State.jumpTo_errInfo (s : State) (t : Addr) : (s.jumpTo t).errInfo = s.errInfo := rfl
@[simp] theorem State.jumpTo_intIn (s : State) (t : Addr) : (s.jumpTo t).intIn = s.intIn := rfl
@[simp] theorem State.jumpTo_floatIn (s : State) (t : Addr) : (s.jumpTo t).floatIn = s.floatIn := rfl
@[simp] theorem State.jumpTo_cfg (s : State) (t : Addr) : (s.jumpTo t).cfg = s.cfg := rfl
@[simp] theorem State.jumpTo_resetDone (s : State) (t : Addr) : (s.jumpTo t).resetDone = s.resetDone := rfl

@[simp] theorem State.halt_mem (s : State) : s.halt.mem = s.mem := rfl
@[simp] theorem State.halt_r0 (s : State) : s.halt.r0 = s.r0 := rfl
@[simp] theorem State.halt_r1 (s : State) : s.halt.r1 = s.r1 := rfl
@[simp] theorem State.halt_ip (s : State) : s.halt.ip = s.ip := rfl
@[simp] theorem State.halt_flags (s : State) : s.halt.flags = s.flags := rfl
@[simp] theorem State.halt_stop (s : State) : s.halt.stop = true := rfl
@[simp] theorem State.halt_error (s : State) : s.halt.error = s.error := rfl
@[simp] theorem State.halt_err (s : State) : s.halt.err = s.err := rfl
@[simp] theorem State.halt_out (s : State) : s.halt.out = s.out := rfl
@[simp] theorem State.halt_errInfo (s : State) : s.halt.errInfo = s.errInfo := rfl
@[simp] theorem State.halt_intIn (s : State) : s.halt.intIn = s.intIn := rfl
@[simp] theorem State.halt_floatIn (s : State) : s.halt.floatIn = s.floatIn := rfl
@[simp] theorem State.halt_cfg (s : State) : s.halt.cfg = s.cfg := rfl
@[simp] theorem State.halt_resetDone (s : State) : s.halt.resetDone = s.resetDone := rfl

@[simp] theorem State.raise_mem (s : State) (e : Err) : (s.raise e).mem = s.mem := rfl
@[simp] theorem State.raise_r0 (s : State) (e : Err) : (s.raise e).r0 = s.r0 := rfl
@[simp] theorem State.raise_r1 (s : State) (e : Err) : (s.raise e).r1 = s.r1 := rfl
@[simp] theorem State.raise_ip (s : State) (e : Err) : (s.raise e).ip = s.ip := rfl
@[simp] theorem State.raise_flags (s : State) (e : Err) : (s.raise e).flags = s.flags := rfl
@[simp] theorem State.raise_stop (s : State) (e : Err) : (s.raise e).stop = s.stop := rfl
@[simp] theorem State.raise_error (s : State) (e : Err) : (s.raise e).error = true := rfl
@[simp] theorem State.raise_err (s : State) (e : Err) : (s.raise e).err = e.kind := rfl
@[simp] theorem State.raise_out (s : State) (e : Err) : (s.raise e).out = s.out := rfl
@[simp] theorem State.raise_errInfo (s : State) (e : Err) : (s.raise e).errInfo = e.info := rfl
@[simp] theorem State.raise_intIn (s : State) (e : Err) : (s.raise e).intIn = s.intIn := rfl
@[simp] theorem State.raise_floatIn (s : State) (e : Err) : (s.raise e).floatIn = s.floatIn := rfl
@[simp] theorem State.raise_cfg (s : State) (e : Err) : (s.raise e).cfg = s.cfg := rfl
@[simp] theorem State.raise_resetDone (s : State) (e : Err) : (s.raise e).resetDone = s.resetDone := rfl

@[simp] theorem State.resetTo_mem (s : State) (entry : Addr) : (s.resetTo entry).mem = s.mem := rfl
@[simp] theorem State.resetTo_r0 (s : State) (entry : Addr) : (s.resetTo entry).r0 = 0#32 := rfl
@[simp] theorem State.resetTo_r1 (s : State) (entry : Addr) : (s.resetTo entry).r1 = 0#32 := rfl
@[simp] theorem State.resetTo_ip (s : State) (entry : Addr) : (s.resetTo entry).ip = entry := rfl
@[simp] theorem State.resetTo_flags (s : State) (entry : Addr) : (s.resetTo entry).flags = Flags.clear := rfl
@[simp] theorem State.resetTo_stop (s : State) (entry : Addr) : (s.resetTo entry).stop = false := rfl
@[simp] theorem State.resetTo_error (s : State) (entry : Addr) : (s.resetTo entry).error = false := rfl
@[simp] theorem State.resetTo_err (s : State) (entry : Addr) : (s.resetTo entry).err = .none := rfl
@[simp] theorem State.resetTo_out (s : State) (entry : Addr) : (s.resetTo entry).out = [] := rfl
@[simp] theorem State.resetTo_errInfo (s : State) (entry : Addr) : (s.resetTo entry).errInfo = .none := rfl
@[simp] theorem State.resetTo_intIn (s : State) (entry : Addr) : (s.resetTo entry).intIn = s.intIn := rfl
@[simp] theorem State.resetTo_floatIn (s : State) (entry : Addr) : (s.resetTo entry).floatIn = s.floatIn := rfl
@[simp] theorem State.resetTo_cfg (s : State) (entry : Addr) : (s.resetTo entry).cfg = s.cfg := rfl
@[simp] theorem State.resetTo_resetDone (s : State) (entry : Addr) : (s.resetTo entry).resetDone = true := rfl

@[simp] theorem State.withReg_mem (s : State) (i : RegIndex) (v : Word) : (s.withReg i v).mem = s.mem := by
  unfold State.withReg; split
  · rfl
  · split <;> rfl
@[simp] theorem State.withReg_ip (s : State) (i : RegIndex) (v : Word) : (s.withReg i v).ip = s.ip := by
  unfold State.withReg; split
  · rfl
  · split <;> rfl
@[simp] theorem State.withReg_flags (s : State) (i : RegIndex) (v : Word) : (s.withReg i v).flags = s.flags := by
  unfold State.withReg; split
  · rfl
  · split <;> rfl
@[simp] theorem State.withReg_stop (s : State) (i : RegIndex) (v : Word) : (s.withReg i v).stop = s.stop := by
  unfold State.withReg; split
  · rfl
  · split <;> rfl
@[simp] theorem State.withReg_error (s : State) (i : RegIndex) (v : Word) : (s.withReg i v).error = s.error := by
  unfold State.withReg; split
  · rfl
  · split <;> rfl
@[simp] theorem State.withReg_err (s : State) (i : RegIndex) (v : Word) : (s.withReg i v).err = s.err := by
  unfold State.withReg; split
  · rfl
  · split <;> rfl
@[simp] theorem State.withReg_out (s : State) (i : RegIndex) (v : Word) : (s.withReg i v).out = s.out := by
  unfold State.withReg; split
  · rfl
  · split <;> rfl
@[simp] theorem State.withReg_errInfo (s : State) (i : RegIndex) (v : Word) : (s.withReg i v).errInfo = s.errInfo := by
  unfold State.withReg; split
  · rfl
  · split <;> rfl
@[simp] theorem State.withReg_intIn (s : State) (i : RegIndex) (v : Word) : (s.withReg i v).intIn = s.intIn := by
  unfold State.withReg; split
  · rfl
  · split <;> rfl
@[simp] theorem State.withReg_floatIn (s : State) (i : RegIndex) (v : Word) : (s.withReg i v).floatIn = s.floatIn := by
  unfold State.withReg; split
  · rfl
  · split <;> rfl
@[simp] theorem State.withReg_cfg (s : State) (i : RegIndex) (v : Word) : (s.withReg i v).cfg = s.cfg := by
  unfold State.withReg; split
  · rfl
  · split <;> rfl
@[simp] theorem State.withReg_resetDone (s : State) (i : RegIndex) (v : Word) : (s.withReg i v).resetDone = s.resetDone := by
  unfold State.withReg; split
  · rfl
  · split <;> rfl

@[simp] theorem State.withReg_r0 (s : State) (i : RegIndex) (v : Word) :
    (s.withReg i v).r0 = if i = 0#3 then v else s.r0 := by
  unfold State.withReg; split
  · rfl
  · split <;> rfl
@[simp] theorem State.withReg_r1 (s : State) (i : RegIndex) (v : Word) :
    (s.withReg i v).r1 = if i = 1#3 then v else s.r1 := by
  unfold State.withReg
  by_cases h0 : i = 0#3
  · subst h0; rfl
  · rw [if_neg h0]; split <;> rfl

end Sys2Proof.Machine
end

