-- ==== Sys2Proof/Laws/Ops.lean ====
section
/-! SUPPORT. For each shared operation, one lemma that says everything it can answer; proofs cite these instead of
unfolding the operation. -/

namespace Sys2Proof.Machine

/-! ## Checked sequencing -/

@[simp] theorem orRaise_ok {α : Type} (s : State) (x : α) (k : α → Result) : orRaise s (.ok x) k = k x := rfl

@[simp] theorem orRaise_error {α : Type} (s : State) (e : Err) (k : α → Result) :
    orRaise s (.error e) k = .next (s.raise e) := rfl

/-- A checked operation either answers and the instruction goes on, or raises its error. -/
theorem orRaise_next_cases {α : Type} {s t : State} {r : Except Err α} {k : α → Result} (h : orRaise s r k = .next t) :
    (∃ x, r = .ok x ∧ k x = .next t) ∨ (∃ e, r = .error e ∧ t = s.raise e) := by
  cases r with
  | ok x => exact .inl ⟨x, rfl, h⟩
  | error e => exact .inr ⟨e, rfl, by simpa using h.symm⟩

/-! ## Registers -/

theorem checkIndex_cases (i : RegIndex) :
    (i.toNat < 2 ∧ checkIndex i = .ok ()) ∨ (2 ≤ i.toNat ∧ checkIndex i = .error (.invalidRegister i)) := by
  unfold checkIndex
  by_cases h : i.toNat < 2
  · exact .inl ⟨h, if_pos h⟩
  · exact .inr ⟨by omega, if_neg h⟩

theorem regRead_cases (s : State) (i : RegIndex) :
    (i = 0#3 ∧ regRead s i = .ok s.r0) ∨ (i = 1#3 ∧ regRead s i = .ok s.r1) ∨
      (2 ≤ i.toNat ∧ regRead s i = .error (.invalidRegister i)) := by
  unfold regRead
  by_cases h0 : i = 0#3
  · exact .inl ⟨h0, if_pos h0⟩
  · by_cases h1 : i = 1#3
    · exact .inr (.inl ⟨h1, by rw [if_neg h0, if_pos h1]⟩)
    · refine .inr (.inr ⟨?_, by rw [if_neg h0, if_neg h1]⟩)
      have h0' : i.toNat ≠ 0 := fun h => h0 (BitVec.eq_of_toNat_eq h)
      have h1' : i.toNat ≠ 1 := fun h => h1 (BitVec.eq_of_toNat_eq h)
      omega

theorem registerPair_cases (s : State) (a1 : Addr1) (a2 : Addr2) :
    (∃ a b, regRead s (a1Index a1) = .ok a ∧ regRead s (a2Index a2) = .ok b ∧ registerPair s a1 a2 = .ok (a, b)) ∨
      (2 ≤ (a1Index a1).toNat ∧ registerPair s a1 a2 = .error (.invalidRegister (a1Index a1))) ∨
        ((a1Index a1).toNat < 2 ∧ 2 ≤ (a2Index a2).toNat ∧
          registerPair s a1 a2 = .error (.invalidRegister (a2Index a2))) := by
  unfold registerPair
  rcases regRead_cases s (a1Index a1) with ⟨i, h⟩ | ⟨i, h⟩ | ⟨i, h⟩
  · rcases regRead_cases s (a2Index a2) with ⟨_, g⟩ | ⟨_, g⟩ | ⟨j, g⟩
    · exact .inl ⟨_, _, h, g, by rw [h, g]⟩
    · exact .inl ⟨_, _, h, g, by rw [h, g]⟩
    · exact .inr (.inr ⟨by rw [i]; decide, j, by rw [h, g]⟩)
  · rcases regRead_cases s (a2Index a2) with ⟨_, g⟩ | ⟨_, g⟩ | ⟨j, g⟩
    · exact .inl ⟨_, _, h, g, by rw [h, g]⟩
    · exact .inl ⟨_, _, h, g, by rw [h, g]⟩
    · exact .inr (.inr ⟨by rw [i]; decide, j, by rw [h, g]⟩)
  · exact .inr (.inl ⟨i, by rw [h]⟩)

/-! ## Addresses -/

/-- Resolution fails only in modes 10 and 11 with an index of 2..7, and for every address alike. -/
theorem effAddr_cases (s : State) (bb : Mode) (addr : Addr) (r : RegIndex) :
    (∃ a, effAddr s bb addr r = .ok a ∧ (bb.resolves → r.toNat < 2)) ∨
      (bb.resolves ∧ 2 ≤ r.toNat ∧ effAddr s bb addr r = .error (.invalidRegister r)) := by
  cases bb with
  | absolute => exact .inl ⟨_, rfl, by rintro (h | h) <;> cases h⟩
  | dispR0 => exact .inl ⟨_, rfl, by rintro (h | h) <;> cases h⟩
  | indirect =>
    rcases regRead_cases s r with ⟨i, h⟩ | ⟨i, h⟩ | ⟨i, h⟩
    · exact .inl ⟨_, by rw [effAddr, h], fun _ => by rw [i]; decide⟩
    · exact .inl ⟨_, by rw [effAddr, h], fun _ => by rw [i]; decide⟩
    · exact .inr ⟨.inl rfl, i, by rw [effAddr, h]⟩
  | indirectDisp =>
    rcases regRead_cases s r with ⟨i, h⟩ | ⟨i, h⟩ | ⟨i, h⟩
    · exact .inl ⟨_, by rw [effAddr, h], fun _ => by rw [i]; decide⟩
    · exact .inl ⟨_, by rw [effAddr, h], fun _ => by rw [i]; decide⟩
    · exact .inr ⟨.inr rfl, i, by rw [effAddr, h]⟩

theorem ea1_cases (s : State) (bb : Mode) (a1 : Addr1) :
    (∃ e1, ea1 s bb a1 = .ok e1 ∧ (bb.resolves → (a1Index a1).toNat < 2)) ∨
      (bb.resolves ∧ 2 ≤ (a1Index a1).toNat ∧ ea1 s bb a1 = .error (.invalidRegister (a1Index a1))) :=
  effAddr_cases s bb (zextA1 a1) (a1Index a1)

/-- Where the first operand's address resolves, so does the second's. -/
theorem ea2_cases (s : State) (bb : Mode) (a1 : Addr1) (a2 : Addr2) :
    (∃ e2, ea2 s bb a1 a2 = .ok e2 ∧ (bb.resolves → (a1Index a1).toNat < 2)) ∨
      (bb.resolves ∧ 2 ≤ (a1Index a1).toNat ∧ ea2 s bb a1 a2 = .error (.invalidRegister (a1Index a1))) :=
  effAddr_cases s bb (zextA2 a2) (a1Index a1)

/-- An address depends on the registers alone. -/
theorem effAddr_congr {s t : State} (bb : Mode) (addr : Addr) (r : RegIndex) (h0 : s.r0 = t.r0) (h1 : s.r1 = t.r1) :
    effAddr s bb addr r = effAddr t bb addr r := by
  cases bb <;> simp only [effAddr, regRead, h0, h1]

/-! ## Operand sequences -/

/-- The operand sequence completes where both windows fit. -/
theorem operandPair_of_fits {s : State} {bb : Mode} {a1 : Addr1} {a2 : Addr2} {e1 e2 : Addr} (h1 : ea1 s bb a1 = .ok e1)
    (h2 : ea2 s bb a1 a2 = .ok e2) (f1 : e1.toNat + 3 ≤ 0xFFFF) (f2 : e2.toNat + 3 ≤ 0xFFFF) :
    operandPair s bb a1 a2 =
      .ok { e1 := e1, e2 := e2, w1 := s.mem.wordAt e1.toNat, w2 := s.mem.wordAt e2.toNat } := by
  simp only [operandPair, h1, h2, memRead_of_fits _ f1, memRead_of_fits _ f2]

/-- Everything the operand sequence can answer, its errors in the order of 40_fetch_decode_dispatch.md R119. -/
theorem operandPair_cases (s : State) (bb : Mode) (a1 : Addr1) (a2 : Addr2) :
    (∃ e1 e2, ea1 s bb a1 = .ok e1 ∧ ea2 s bb a1 a2 = .ok e2 ∧ e1.toNat + 3 ≤ 0xFFFF ∧ e2.toNat + 3 ≤ 0xFFFF ∧
        operandPair s bb a1 a2 =
          .ok { e1 := e1, e2 := e2, w1 := s.mem.wordAt e1.toNat, w2 := s.mem.wordAt e2.toNat }) ∨
      (bb.resolves ∧ 2 ≤ (a1Index a1).toNat ∧ operandPair s bb a1 a2 = .error (.invalidRegister (a1Index a1))) ∨
        (∃ e1 e2, ea1 s bb a1 = .ok e1 ∧ ea2 s bb a1 a2 = .ok e2 ∧
          ((0xFFFF < e1.toNat + 3 ∧ operandPair s bb a1 a2 = .error (.outOfBounds e1)) ∨
            (e1.toNat + 3 ≤ 0xFFFF ∧ 0xFFFF < e2.toNat + 3 ∧
              operandPair s bb a1 a2 = .error (.outOfBounds e2)))) := by
  rcases ea1_cases s bb a1 with ⟨e1, h1, _⟩ | ⟨hb, hi, h1⟩
  · rcases ea2_cases s bb a1 a2 with ⟨e2, h2, _⟩ | ⟨hb, hi, h2⟩
    · rcases memRead_cases s.mem e1 with ⟨f1, m1⟩ | ⟨f1, m1⟩
      · rcases memRead_cases s.mem e2 with ⟨f2, m2⟩ | ⟨f2, m2⟩
        · exact .inl ⟨e1, e2, h1, h2, f1, f2, operandPair_of_fits h1 h2 f1 f2⟩
        · exact .inr (.inr ⟨e1, e2, h1, h2, .inr ⟨f1, f2, by simp only [operandPair, h1, h2, m1, m2]⟩⟩)
      · exact .inr (.inr ⟨e1, e2, h1, h2, .inl ⟨f1, by simp only [operandPair, h1, h2, m1]⟩⟩)
    · exact .inr (.inl ⟨hb, hi, by simp only [operandPair, h1, h2]⟩)
  · exact .inr (.inl ⟨hb, hi, by simp only [operandPair, h1]⟩)

/-- Everything the end of a class M2 instruction can answer. -/
theorem storeResult_cases (s : State) (e : Addr) (res : Word) (f : Flags) :
    (e.toNat + 3 ≤ 0xFFFF ∧
        storeResult s e res f = .next ((s.withMem (s.mem.setWord e.toNat res)).withFlags f).advance) ∨
      (0xFFFF < e.toNat + 3 ∧ storeResult s e res f = .next (s.raise (.outOfBounds e))) := by
  unfold storeResult
  rcases memWrite_cases s.mem e res with ⟨h, g⟩ | ⟨h, g⟩
  · exact .inl ⟨h, by rw [g]; rfl⟩
  · exact .inr ⟨h, by rw [g]; rfl⟩

/-- Everything the end of IIN, RIN and STORE can answer. -/
theorem storeWord_cases (s : State) (e : Addr) (w : Word) :
    (e.toNat + 3 ≤ 0xFFFF ∧ storeWord s e w = .next (s.withMem (s.mem.setWord e.toNat w)).advance) ∨
      (0xFFFF < e.toNat + 3 ∧ storeWord s e w = .next (s.raise (.outOfBounds e))) := by
  unfold storeWord
  rcases memWrite_cases s.mem e w with ⟨h, g⟩ | ⟨h, g⟩
  · exact .inl ⟨h, by rw [g]; rfl⟩
  · exact .inr ⟨h, by rw [g]; rfl⟩

/-- Everything a conditional jump can answer. -/
theorem jumpIf_cases (taken : Bool) (bb : Mode) (a1 : Addr1) (s : State) :
    (taken = false ∧ jumpIf taken bb a1 s = .next s.advance) ∨
      (∃ t, taken = true ∧ ea1 s bb a1 = .ok t ∧ jumpIf taken bb a1 s = .next (s.jumpTo t)) ∨
        (taken = true ∧ bb.resolves ∧ 2 ≤ (a1Index a1).toNat ∧
          jumpIf taken bb a1 s = .next (s.raise (.invalidRegister (a1Index a1)))) := by
  cases taken with
  | false => exact .inl ⟨rfl, rfl⟩
  | true =>
    rcases ea1_cases s bb a1 with ⟨t, h, _⟩ | ⟨hb, hi, h⟩
    · exact .inr (.inl ⟨t, rfl, h, by simp [jumpIf, h]⟩)
    · exact .inr (.inr ⟨rfl, hb, hi, by simp [jumpIf, h]⟩)

/-! ## Fetch -/

/-- A 16-bit IP is always a valid address, so the fetch is the word read at IP. -/
theorem fetchWord_eq (s : State) : fetchWord s = memRead s.mem s.ip := by
  have h : isValidAddress s.ip.toNat = true := by
    have := s.ip.isLt
    simp only [isValidAddress, decide_eq_true_eq]; omega
  rw [fetchWord, if_pos h]

/-- Everything discrimination and dispatch can answer. -/
theorem discriminate_cases (cfg : Config) (w : Word) :
    (∃ i, discriminate cfg w = .ok i ∧ decodeWord w = .ok i ∧ (opField w = 0#8 → cfg.zeroOpcodeFetch = .stop)) ∨
      (discriminate cfg w = .error (.invalidOpcode w) ∧
        ((opField w = 0#8 ∧ cfg.zeroOpcodeFetch = .invalidOpcode) ∨ ∃ e, decodeWord w = .error e)) := by
  unfold discriminate
  by_cases h : opField w = 0#8 ∧ cfg.zeroOpcodeFetch = .invalidOpcode
  · exact .inr ⟨if_pos h, .inl h⟩
  · rw [if_neg h]
    cases hd : decodeWord w with
    | ok i =>
      refine .inl ⟨i, rfl, rfl, fun h0 => ?_⟩
      cases hz : cfg.zeroOpcodeFetch with
      | stop => rfl
      | invalidOpcode => exact absurd ⟨h0, hz⟩ h
    | error e => exact .inr ⟨rfl, .inr ⟨e, rfl⟩⟩

/-- Everything the fetch of an instruction can answer. -/
theorem fetchInstr_cases (s : State) :
    (∃ w i, memRead s.mem s.ip = .ok w ∧ decodeWord w = .ok i ∧ fetchInstr s = .ok i ∧
        (opField w = 0#8 → s.cfg.zeroOpcodeFetch = .stop)) ∨
      (∃ w, memRead s.mem s.ip = .ok w ∧ fetchInstr s = .error (.invalidOpcode w)) ∨
        (0xFFFF < s.ip.toNat + 3 ∧ fetchInstr s = .error (.outOfBounds s.ip)) := by
  rcases memRead_cases s.mem s.ip with ⟨hf, hm⟩ | ⟨hf, hm⟩
  · rcases discriminate_cases s.cfg (s.mem.wordAt s.ip.toNat) with ⟨i, hd, hw, hz⟩ | ⟨hd, _⟩
    · exact .inl ⟨_, i, hm, hw, by rw [fetchInstr, fetchWord_eq, hm]; exact hd, hz⟩
    · exact .inr (.inl ⟨_, hm, by rw [fetchInstr, fetchWord_eq, hm]; exact hd⟩)
  · exact .inr (.inr ⟨hf, by rw [fetchInstr, fetchWord_eq, hm]⟩)

/-! ## Floats -/

/-- `FP_NAN` is a NaN pattern whatever the free value is (42_float_arith.md R165). -/
theorem isNaN_fpNan (op : FloatOp) (w1 w2 : Word) : isNaN (fpNan op w1 w2) = true := by
  have hE : expField (fpNan op w1 w2) = 0xFF#8 := by
    apply BitVec.eq_of_getLsbD_eq
    intro i hi
    have h1 : ¬23 + i < 23 := by omega
    have h2 : 23 + i - 23 = i := by omega
    simp only [expField, fpNan, BitVec.getLsbD_extractLsb', BitVec.getLsbD_append, h1, h2, hi, decide_true, Bool.true_and,
      if_true, if_false]
  have hF : fracField (fpNan op w1 w2) = BitVec.ofNat 23 ((Config.nanChoice op w1 w2).2.val + 1) := by
    apply BitVec.eq_of_getLsbD_eq
    intro i hi
    simp only [fracField, fpNan, BitVec.getLsbD_extractLsb', BitVec.getLsbD_append, hi, Nat.zero_add, decide_true,
      Bool.true_and, if_true]
  have hne : BitVec.ofNat 23 ((Config.nanChoice op w1 w2).2.val + 1) ≠ 0#23 := by
    intro h
    have := congrArg BitVec.toNat h
    have hp := (Config.nanChoice op w1 w2).2.isLt
    rw [BitVec.toNat_ofNat, Nat.mod_eq_of_lt (by omega)] at this
    simp at this
  rw [isNaN, hE, hF]
  simpa using hne

end Sys2Proof.Machine
end

