-- ==== Sys2Proof/Laws/Completion.lean ====
section
/-! SUPPORT. Where the shared operations complete, in the terms of the statements: the operand sequences, the two stores,
the register write, the jump and the add carry. -/

namespace Sys2Proof.Machine

theorem advanced_of_ip {s t : State} (h : t.ip = s.ip + 1#16) : Advanced s t := by
  unfold Advanced
  rw [h, BitVec.toNat_add]
  rfl

theorem zextA1_toNat (a1 : Addr1) : (zextA1 a1).toNat = a1.toNat := by
  have := a1.isLt
  simp only [zextA1, BitVec.toNat_setWidth]
  omega

theorem zextA2_toNat (a2 : Addr2) : (zextA2 a2).toNat = a2.toNat := by
  have := a2.isLt
  simp only [zextA2, BitVec.toNat_setWidth]
  omega

/-! ## Register indices -/

theorem checkIndex_of_valid {i : RegIndex} (h : i.toNat < 2) : checkIndex i = .ok () := if_pos h

theorem checkIndex_of_invalid {i : RegIndex} (h : 2 ≤ i.toNat) : checkIndex i = .error (.invalidRegister i) :=
  if_neg (Nat.not_lt.mpr h)

theorem regRead_of_invalid {s : State} {i : RegIndex} (h : 2 ≤ i.toNat) : regRead s i = .error (.invalidRegister i) := by
  rcases regRead_cases s i with ⟨h', _⟩ | ⟨h', _⟩ | ⟨_, g⟩
  · subst h'
    simp at h
  · subst h'
    simp at h
  · exact g

theorem valid_of_regRead {s : State} {i : RegIndex} {v : Word} (h : regRead s i = .ok v) : i.toNat < 2 := by
  by_contra hc
  rw [regRead_of_invalid (Nat.not_lt.mp hc)] at h
  cases h

/-- A register written by an instruction reads back after it. -/
theorem regRead_withReg {s t : State} {i : RegIndex} {v : Word} (hi : i.toNat < 2) (h0 : t.r0 = (s.withReg i v).r0)
    (h1 : t.r1 = (s.withReg i v).r1) : regRead t i = .ok v := by
  have h : i = 0#3 ∨ i = 1#3 := by
    rcases Nat.lt_succ_iff_lt_or_eq.mp hi with h | h
    · exact .inl (BitVec.eq_of_toNat_eq (by simpa using h))
    · exact .inr (BitVec.eq_of_toNat_eq h)
  rcases h with rfl | rfl
  · rw [regRead, if_pos rfl, h0]
    rfl
  · rw [regRead, if_neg (by decide), if_pos rfl, h1]
    rfl

/-! ## Operand sequences -/

theorem ea1_of_invalid {s : State} {bb : Mode} {a1 : Addr1} (hb : bb.resolves) (hi : 2 ≤ (a1Index a1).toNat) :
    ea1 s bb a1 = .error (.invalidRegister (a1Index a1)) := by
  rcases ea1_cases s bb a1 with ⟨_, _, h⟩ | ⟨_, _, h⟩
  · have := h hb
    omega
  · exact h

/-- What follows the operand sequence of class M2 runs on the two words. -/
theorem orRaise_operandPair {s : State} {bb : Mode} {a1 : Addr1} {a2 : Addr2} {e1 e2 : Addr}
    (h : OperandsAt s bb a1 a2 e1 e2) (k : OperandPair → Result) :
    orRaise s (operandPair s bb a1 a2) k =
      k { e1 := e1, e2 := e2, w1 := s.mem.wordAt e1.toNat, w2 := s.mem.wordAt e2.toNat } := by
  rw [operandPair_of_fits h.1 h.2.1 h.2.2.1 h.2.2.2]
  rfl

/-- The errors of class M2 come from its operand sequence, whatever follows it. -/
theorem twoOperandErrors_of_operandPair {make : Mode → Addr1 → Addr2 → Instr}
    (h : ∀ bb a1 a2 s, ∃ k, exec (make bb a1 a2) s = orRaise s (operandPair s bb a1 a2) k) : TwoOperandErrors make := by
  intro bb a1 a2 s
  obtain ⟨k, hk⟩ := h bb a1 a2 s
  rw [hk]
  refine ⟨fun hb hi => ?_, fun e1 e2 h1 h2 => ⟨fun f1 => ?_, fun f1 f2 => ?_⟩⟩
  · simp only [operandPair, ea1_of_invalid hb hi]
    rfl
  · simp only [operandPair, h1, h2, memRead_of_not_fits _ f1]
    rfl
  · simp only [operandPair, h1, h2, memRead_of_fits _ f1, memRead_of_not_fits _ f2]
    rfl

theorem registerPair_of_valid {s : State} {a1 : Addr1} {a2 : Addr2} {a b : Word} (ha : regRead s (a1Index a1) = .ok a)
    (hb : regRead s (a2Index a2) = .ok b) : registerPair s a1 a2 = .ok (a, b) := by
  simp only [registerPair, ha, hb]

theorem registerPair_of_invalid_first {s : State} {a1 : Addr1} {a2 : Addr2} (h : 2 ≤ (a1Index a1).toNat) :
    registerPair s a1 a2 = .error (.invalidRegister (a1Index a1)) := by
  simp only [registerPair, regRead_of_invalid h]

theorem registerPair_of_invalid_second {s : State} {a1 : Addr1} {a2 : Addr2} (h1 : (a1Index a1).toNat < 2)
    (h2 : 2 ≤ (a2Index a2).toNat) : registerPair s a1 a2 = .error (.invalidRegister (a2Index a2)) := by
  rcases registerPair_cases s a1 a2 with ⟨_, _, _, g, _⟩ | ⟨_, _⟩ | ⟨_, _, g⟩
  · rw [regRead_of_invalid h2] at g
    cases g
  · omega
  · exact g

/-! ## Stores -/

theorem storedOnly_of_mem {s t : State} {e : Addr} {w : Word} (h : t.mem = s.mem.setWord e.toNat w) :
    StoredOnly s t e w := by
  unfold StoredOnly
  rw [h]
  exact ⟨Memory.wordAt_setWord _ _ _, fun x hx => Memory.byteAt_setWord_of_outside _ _ _ _ hx⟩

/-- The end of a class M2 instruction completes where its window fits. -/
theorem storeResult_completes (s : State) {e : Addr} (res : Word) (f : Flags) (he : WindowFits e) :
    ∃ t, storeResult s e res f = .next t ∧ CompletedStore s t e res f := by
  rcases storeResult_cases s e res f with ⟨_, g⟩ | ⟨h, _⟩
  · exact ⟨_, g, storedOnly_of_mem rfl, advanced_of_ip rfl, rfl⟩
  · exact absurd he (Nat.not_le.mpr h)

/-- The end of IIN, RIN and STORE where its window fits. -/
theorem storeWord_of_fits (s : State) {e : Addr} (w : Word) (he : WindowFits e) :
    storeWord s e w = .next (s.withMem (s.mem.setWord e.toNat w)).advance := by
  rcases storeWord_cases s e w with ⟨_, g⟩ | ⟨h, _⟩
  · exact g
  · exact absurd he (Nat.not_le.mpr h)

theorem storeWord_of_not_fits (s : State) {e : Addr} (w : Word) (he : ¬WindowFits e) :
    storeWord s e w = .next (s.raise (.outOfBounds e)) := by
  rcases storeWord_cases s e w with ⟨h, _⟩ | ⟨_, g⟩
  · exact absurd h he
  · exact g

/-! ## Jumps -/

/-- An instruction whose meaning is the shared jump follows the rule of its test. -/
theorem jumpRule_of_jumpIf {make : Mode → Addr1 → Addr2 → Instr} {taken : Flags → Prop} {test : Flags → Bool}
    (ht : ∀ f, taken f ↔ test f = true)
    (hx : ∀ bb a1 a2 s, exec (make bb a1 a2) s = jumpIf (test s.flags) bb a1 s) : JumpRule make taken := by
  intro bb a1 a2 s
  rw [hx, ht]
  refine ⟨fun h => ?_, fun h hr hi => ?_, fun a h ha => ?_⟩
  · exact ⟨s.advance, by simp [jumpIf, h], advanced_of_ip rfl, rfl⟩
  · simp only [jumpIf, h, if_true, ea1_of_invalid hr hi]
    rfl
  · refine ⟨s.jumpTo a, by simp [jumpIf, h, ha], rfl, ?_⟩
    unfold State.jumpTo
    dsimp only
    split
    · rw [BitVec.toNat_add]
      rfl
    · rfl

/-! ## Flags -/

theorem decide_eq_zero (w : Word) : decide (w = 0#32) = decide (w.toInt = 0) :=
  decide_eq_decide.mpr ⟨fun h => by rw [h]; rfl, fun h => BitVec.eq_of_toInt_eq h⟩

/-- The add carry of 41_integer_arith.md R140: under `Wrap32` it is the sign of the result. -/
theorem addFlags_c (carry : CarryAdd) (a b res : Word) (h : res = BitVec.ofInt 32 (a.toInt + b.toInt)) :
    (addFlags carry a b res).c = if carry = .wrap32 then res.msb else decide (0x7FFFFFFF < a.toNat + b.toNat) := by
  cases carry with
  | exact => rfl
  | wrap32 =>
    rw [if_pos rfl, h, BitVec.ofInt_add, BitVec.ofInt_toInt, BitVec.ofInt_toInt, BitVec.msb_eq_decide, BitVec.toNat_add]
    refine decide_eq_decide.mpr ?_
    simp only [u32]
    omega

end Sys2Proof.Machine
end

