-- ==== Sys2Proof/Laws/Encoding.lean ====
section
/-! SUPPORT. The fields of a packed word, and the dispatch table's lookup. -/

namespace Sys2Proof

@[simp] theorem Mode.ofBits_bits (bb : Mode) : Mode.ofBits bb.bits = bb := by cases bb <;> rfl

@[simp] theorem Mode.bits_ofBits (b : BitVec 2) : (Mode.ofBits b).bits = b := by
  revert b; decide

@[simp] theorem opField_packWord (op : Byte) (bb : BitVec 2) (a1 : Addr1) (a2 : Addr2) :
    opField (packWord op bb a1 a2) = op := by
  apply BitVec.eq_of_getLsbD_eq
  intro i hi
  have h1 : ¬24 + i < 10 := by omega
  have h2 : ¬24 + i - 10 < 12 := by omega
  have h3 : ¬24 + i - 10 - 12 < 2 := by omega
  have h4 : 24 + i - 10 - 12 - 2 = i := by omega
  simp only [opField, packWord, BitVec.getLsbD_extractLsb', BitVec.getLsbD_append, h1, h2, h3, h4, hi, decide_true,
    Bool.true_and, if_false]

@[simp] theorem bbField_packWord (op : Byte) (bb : BitVec 2) (a1 : Addr1) (a2 : Addr2) :
    bbField (packWord op bb a1 a2) = bb := by
  apply BitVec.eq_of_getLsbD_eq
  intro i hi
  have h1 : ¬22 + i < 10 := by omega
  have h2 : ¬22 + i - 10 < 12 := by omega
  have h3 : 22 + i - 10 - 12 < 2 := by omega
  have h4 : 22 + i - 10 - 12 = i := by omega
  simp only [bbField, packWord, BitVec.getLsbD_extractLsb', BitVec.getLsbD_append, h1, h2, h4, hi, decide_true,
    Bool.true_and, if_true, if_false]

@[simp] theorem a1Field_packWord (op : Byte) (bb : BitVec 2) (a1 : Addr1) (a2 : Addr2) :
    a1Field (packWord op bb a1 a2) = a1 := by
  apply BitVec.eq_of_getLsbD_eq
  intro i hi
  have h1 : ¬10 + i < 10 := by omega
  have h4 : 10 + i - 10 = i := by omega
  simp only [a1Field, packWord, BitVec.getLsbD_extractLsb', BitVec.getLsbD_append, h1, h4, hi, decide_true,
    Bool.true_and, if_true, if_false]

@[simp] theorem a2Field_packWord (op : Byte) (bb : BitVec 2) (a1 : Addr1) (a2 : Addr2) :
    a2Field (packWord op bb a1 a2) = a2 := by
  apply BitVec.eq_of_getLsbD_eq
  intro i hi
  simp only [a2Field, packWord, BitVec.getLsbD_extractLsb', BitVec.getLsbD_append, Nat.zero_add, hi, decide_true,
    Bool.true_and, if_true]

/-- The packing of a word's own fields is the word (30_encoding.md R81). -/
theorem packWord_fields (w : Word) : packWord (opField w) (bbField w) (a1Field w) (a2Field w) = w := by
  apply BitVec.eq_of_getLsbD_eq
  intro i hi
  simp only [packWord, opField, bbField, a1Field, a2Field, BitVec.getLsbD_append, BitVec.getLsbD_extractLsb']
  have : i < 10 ∨ (10 ≤ i ∧ i < 22) ∨ (22 ≤ i ∧ i < 24) ∨ (24 ≤ i ∧ i < 32) := by omega
  rcases this with h | h | h | h
  · simp [h]
  · have h1 : ¬i < 10 := by omega
    have h2 : i - 10 < 12 := by omega
    have h3 : 10 + (i - 10) = i := by omega
    simp [h1, h2, h3]
  · have h1 : ¬i < 10 := by omega
    have h2 : ¬i - 10 < 12 := by omega
    have h3 : i - 10 - 12 < 2 := by omega
    have h4 : 22 + (i - 10 - 12) = i := by omega
    simp [h1, h2, h3, h4]
  · have h1 : ¬i < 10 := by omega
    have h2 : ¬i - 10 < 12 := by omega
    have h3 : ¬i - 10 - 12 < 2 := by omega
    have h4 : i - 10 - 12 - 2 < 8 := by omega
    have h5 : 24 + (i - 10 - 12 - 2) = i := by omega
    simp [h1, h2, h3, h4, h5]

/-- A packed word whose opcode the table holds decodes to that row's instruction with the packed fields. -/
theorem decodeWord_packWord {op : Byte} {row : OpcodeRow} (h : opcodeTable.find? (fun r => r.opcode == op) = some row)
    (bb : Mode) (a1 : Addr1) (a2 : Addr2) : decodeWord (packWord op bb.bits a1 a2) = .ok (row.make bb a1 a2) := by
  simp only [decodeWord, opField_packWord, h, bbField_packWord, a1Field_packWord, a2Field_packWord, Mode.ofBits_bits]

/-- Everything the decoder can answer: a row of the table whose opcode is the word's, or none. -/
theorem decodeWord_cases (w : Word) :
    (∃ row ∈ opcodeTable, row.opcode = opField w ∧
        decodeWord w = .ok (row.make (Mode.ofBits (bbField w)) (a1Field w) (a2Field w))) ∨
      ((∀ row ∈ opcodeTable, row.opcode ≠ opField w) ∧ decodeWord w = .error (.absentOpcode w)) := by
  cases h : opcodeTable.find? (fun row => row.opcode == opField w) with
  | some row =>
    refine .inl ⟨row, List.mem_of_find?_eq_some h, ?_, by rw [decodeWord, h]⟩
    simpa using List.find?_some h
  | none =>
    refine .inr ⟨fun row hr => ?_, by rw [decodeWord, h]⟩
    simpa using List.find?_eq_none.mp h row hr

/-- The index that the static check reads is `A1[2:0]`. -/
theorem a1Index_eq_setWidth (a1 : Addr1) : a1Index a1 = a1.setWidth 3 := by
  apply BitVec.eq_of_getLsbD_eq
  intro i hi
  simp [a1Index]

/-- The index that the static check reads is `A2[2:0]`. -/
theorem a2Index_eq_setWidth (a2 : Addr2) : a2Index a2 = a2.setWidth 3 := by
  apply BitVec.eq_of_getLsbD_eq
  intro i hi
  simp [a2Index]

end Sys2Proof
end

