-- ==== Sys2Proof/Laws/Exec.lean ====
section
/-! SUPPORT. Everything an instruction and a step can do, said once: the invariants and frames of the machine are case
splits over `ExecEffect`. -/

namespace Sys2Proof.Machine

/-- The effects an instruction `i` can have when `exec i s` answers `t`. -/
inductive ExecEffect (i : Instr) (s t : State) : Prop where
  /-- STOP. -/
  | halted (hi : ∃ bb a1 a2, i = .stop bb a1 a2) (ht : t = s.halt)
  /-- An input request the host has not answered. -/
  | waited (hi : waitsForHost i s = true) (ht : t = s)
  /-- An error of the instruction's row of the table, raised before any effect. -/
  | raised (e : Err) (ht : t = s.raise e) (hk : mayRaise i s e.kind)
  /-- An error of IIN after its answer was consumed. -/
  | raisedAfterInt (e : Err) (x : IntAnswer) (rest : List IntAnswer) (hs : s.intIn = x :: rest)
      (hi : ∃ bb a1 a2, i = .iin bb a1 a2) (ht : t = (s.withIntIn rest).raise e) (hk : mayRaise i s e.kind)
  /-- An error of RIN after its answer was consumed. -/
  | raisedAfterFloat (e : Err) (x : FloatAnswer) (rest : List FloatAnswer) (hs : s.floatIn = x :: rest)
      (hi : ∃ bb a1 a2, i = .rin bb a1 a2) (ht : t = (s.withFloatIn rest).raise e) (hk : mayRaise i s e.kind)
  /-- A result of class M2 stored, with its flags. -/
  | storedResult (e : Addr) (r : Word) (f : Flags) (hw : writesFlags i = true) (hr : writtenRegister i = none)
      (hj : leavesStraightLine i s = false) (ha : storeAddress i s = some e) (hf : e.toNat + 3 ≤ 0xFFFF)
      (ht : t = ((s.withMem (s.mem.setWord e.toNat r)).withFlags f).advance)
  /-- An integer answer stored. -/
  | storedInt (e : Addr) (r : Word) (x : IntAnswer) (rest : List IntAnswer) (hs : s.intIn = x :: rest)
      (hi : ∃ bb a1 a2, i = .iin bb a1 a2) (ha : storeAddress i s = some e) (hf : e.toNat + 3 ≤ 0xFFFF)
      (ht : t = ((s.withIntIn rest).withMem (s.mem.setWord e.toNat r)).advance)
  /-- A float answer stored. -/
  | storedFloat (e : Addr) (r : Word) (x : FloatAnswer) (rest : List FloatAnswer) (hs : s.floatIn = x :: rest)
      (hi : ∃ bb a1 a2, i = .rin bb a1 a2) (ha : storeAddress i s = some e) (hf : e.toNat + 3 ≤ 0xFFFF)
      (ht : t = ((s.withFloatIn rest).withMem (s.mem.setWord e.toNat r)).advance)
  /-- A register stored. -/
  | storedRegister (e : Addr) (v : Word) (hi : ∃ bb a1 a2, i = .store bb a1 a2) (ha : storeAddress i s = some e)
      (hf : e.toNat + 3 ≤ 0xFFFF) (ht : t = (s.withMem (s.mem.setWord e.toNat v)).advance)
  /-- An output event. -/
  | emitted (ev : OutEvent) (hi : ∃ bb a1 a2, i = .iout bb a1 a2 ∨ i = .rout bb a1 a2) (ht : t = (s.emit ev).advance)
  /-- A jump not taken. -/
  | fellThrough (ha : storeAddress i s = none) (ht : t = s.advance)
  /-- A jump taken. -/
  | jumped (a : Addr) (hj : leavesStraightLine i s = true) (ha : storeAddress i s = none) (ht : t = s.jumpTo a)
  /-- A register written. -/
  | wroteRegister (d : RegIndex) (v : Word) (hr : writtenRegister i = some d) (ha : storeAddress i s = none)
      (ht : t = (s.withReg d v).advance)
  /-- A register written, with its flags. -/
  | wroteRegisterFlags (d : RegIndex) (v : Word) (f : Flags) (hr : writtenRegister i = some d)
      (hw : writesFlags i = true) (ha : storeAddress i s = none) (ht : t = ((s.withReg d v).withFlags f).advance)

/-- A class M2 instruction, given what its continuation does with the operands. -/
theorem effect_of_operandPair {i : Instr} {s t : State} {bb a1 a2} (k : OperandPair → Result)
    (h : orRaise s (operandPair s bb a1 a2) k = .next t)
    (hk : ∀ o, k o = .next t →
      (∃ e, mayRaise i s (Err.kind e) ∧ t = s.raise e) ∨ (∃ r f, k o = storeResult s o.e1 r f))
    (hw1 : writesFlags i = true) (hw2 : writtenRegister i = none) (hj : leavesStraightLine i s = false)
    (hs : storeAddress i s = (ea1 s bb a1).toOption) (ho : mayRaise i s .outOfBounds)
    (hr : bb.resolves → mayRaise i s .invalidRegister) : ExecEffect i s t := by
  rcases orRaise_next_cases h with ⟨o, ho', hk'⟩ | ⟨e, he, ht⟩
  · rcases operandPair_cases s bb a1 a2 with ⟨e1, e2, h1, h2, f1, f2, hp⟩ | ⟨_, _, hp⟩ | ⟨e1, e2, h1, h2, ⟨_, hp⟩ | ⟨_, _, hp⟩⟩ <;>
    rw [hp] at ho' <;> cases ho'
    rcases hk _ hk' with ⟨e, hm, ht⟩ | ⟨r, f, hst⟩
    · exact .raised e ht hm
    · rcases storeResult_cases s e1 r f with ⟨hf, hq⟩ | ⟨hf, hq⟩
      · rw [hst, hq] at hk'
        injection hk' with hk'
        exact .storedResult e1 r f hw1 hw2 hj (by rw [hs, h1]; rfl) hf hk'.symm
      · omega
  · rcases operandPair_cases s bb a1 a2 with ⟨e1, e2, h1, h2, f1, f2, hp⟩ | ⟨hb, _, hp⟩ | ⟨e1, e2, h1, h2, ⟨_, hp⟩ | ⟨_, _, hp⟩⟩ <;>
    rw [hp] at he <;> cases he
    · exact .raised _ ht (hr hb)
    · exact .raised _ ht ho
    · exact .raised _ ht ho

/-- A conditional jump. -/
theorem effect_of_jumpIf {i : Instr} {s t : State} {bb a1 b} (h : jumpIf b bb a1 s = .next t)
    (hj : leavesStraightLine i s = b) (hs : storeAddress i s = none)
    (hr : bb.resolves → leavesStraightLine i s = true → mayRaise i s .invalidRegister) : ExecEffect i s t := by
  rcases jumpIf_cases b bb a1 s with ⟨_, g⟩ | ⟨a, hb', _, g⟩ | ⟨hb', hb, _, g⟩ <;> rw [g] at h <;>
    injection h with h
  · exact .fellThrough hs h.symm
  · exact .jumped a (hj.trans hb') hs h.symm
  · exact .raised _ h.symm (hr hb (hj.trans hb'))

/-- The three jump tests on the flag word, in the flags (44_control_flow.md R201 to R203). -/
theorem flagWord_tests (f : Flags) :
    decide (flagWord f = 0#16) = (!f.s && !f.v && !f.z && !f.c) ∧
      decide (0 < s16 (flagWord f)) = (!f.s && (f.v || f.z || f.c)) ∧ decide (s16 (flagWord f) < 0) = f.s := by
  obtain ⟨s, c, v, z⟩ := f
  revert s c v z
  decide

/-- Everything an instruction can do. -/
theorem exec_effect {i : Instr} {s t : State} (h : exec i s = .next t) : ExecEffect i s t := by
  cases i with
  | stop bb a1 a2 => injection h with h; exact .halted ⟨_, _, _, rfl⟩ h.symm
  | iadd bb a1 a2 =>
    exact effect_of_operandPair _ h (fun o _ => .inr ⟨_, _, rfl⟩) rfl rfl rfl rfl (.inl rfl) fun h => .inr ⟨rfl, h⟩
  | isub bb a1 a2 =>
    exact effect_of_operandPair _ h (fun o _ => .inr ⟨_, _, rfl⟩) rfl rfl rfl rfl (.inl rfl) fun h => .inr ⟨rfl, h⟩
  | imul bb a1 a2 =>
    exact effect_of_operandPair _ h (fun o _ => .inr ⟨_, _, rfl⟩) rfl rfl rfl rfl (.inl rfl) fun h => .inr ⟨rfl, h⟩
  | radd bb a1 a2 =>
    exact effect_of_operandPair _ h (fun o _ => .inr ⟨_, _, rfl⟩) rfl rfl rfl rfl (.inl rfl) fun h => .inr ⟨rfl, h⟩
  | rsub bb a1 a2 =>
    exact effect_of_operandPair _ h (fun o _ => .inr ⟨_, _, rfl⟩) rfl rfl rfl rfl (.inl rfl) fun h => .inr ⟨rfl, h⟩
  | rmul bb a1 a2 =>
    exact effect_of_operandPair _ h (fun o _ => .inr ⟨_, _, rfl⟩) rfl rfl rfl rfl (.inl rfl) fun h => .inr ⟨rfl, h⟩
  | idiv bb a1 a2 =>
    refine effect_of_operandPair _ h (fun o ho => ?_) rfl rfl rfl rfl (.inl rfl) (fun h => .inr (.inl ⟨rfl, h⟩))
    dsimp only at ho ⊢
    by_cases hz : s32 o.w2 = 0
    · rw [if_pos hz] at ho
      injection ho with ho
      exact .inl ⟨.divByZero o.e2, .inr (.inr rfl), ho.symm⟩
    · rw [if_neg hz]
      exact .inr ⟨_, _, rfl⟩
  | rdiv bb a1 a2 =>
    refine effect_of_operandPair _ h (fun o ho => ?_) rfl rfl rfl rfl (.inl rfl) (fun h => .inr (.inl ⟨rfl, h⟩))
    by_cases hz : isZero o.w2 = true
    · rw [if_pos hz] at ho
      injection ho with ho
      exact .inl ⟨.divByZero o.e2, .inr (.inr rfl), ho.symm⟩
    · rw [if_neg hz]
      exact .inr ⟨_, _, rfl⟩
  | iin bb a1 a2 =>
    rcases orRaise_next_cases h with ⟨e1, he, hk⟩ | ⟨e, he, ht⟩
    · revert hk
      cases hq : s.intIn with
      | nil =>
        intro hk
        injection hk with hk
        exact .waited (by simp [waitsForHost, he, hq, Except.toBool]) hk.symm
      | cons x rest =>
        cases x with
        | fail =>
          intro hk
          injection hk with hk
          exact .raisedAfterInt _ _ _ hq ⟨_, _, _, rfl⟩ hk.symm (.inr (.inr rfl))
        | int n =>
          intro hk
          change storeWord _ _ _ = _ at hk
          rcases storeWord_cases (s.withIntIn rest) e1 (trunc32 (s32 n)) with ⟨hf, g⟩ | ⟨_, g⟩ <;> rw [g] at hk <;>
            injection hk with hk
          · exact .storedInt e1 _ _ rest hq ⟨_, _, _, rfl⟩ (by simp [storeAddress, he, Except.toOption]) hf hk.symm
          · exact .raisedAfterInt _ _ _ hq ⟨_, _, _, rfl⟩ hk.symm (.inl rfl)
    · rcases ea1_cases s bb a1 with ⟨_, h1, _⟩ | ⟨hb, _, h1⟩ <;> rw [h1] at he <;> cases he
      exact .raised _ ht (.inr (.inl ⟨rfl, hb⟩))
  | rin bb a1 a2 =>
    rcases orRaise_next_cases h with ⟨e1, he, hk⟩ | ⟨e, he, ht⟩
    · revert hk
      cases hq : s.floatIn with
      | nil =>
        intro hk
        injection hk with hk
        exact .waited (by simp [waitsForHost, he, hq, Except.toBool]) hk.symm
      | cons x rest =>
        cases x with
        | fail =>
          intro hk
          injection hk with hk
          exact .raisedAfterFloat _ _ _ hq ⟨_, _, _, rfl⟩ hk.symm (.inr (.inr rfl))
        | float n =>
          intro hk
          change storeWord _ _ _ = _ at hk
          rcases storeWord_cases (s.withFloatIn rest) e1 n with ⟨hf, g⟩ | ⟨_, g⟩ <;> rw [g] at hk <;>
            injection hk with hk
          · exact .storedFloat e1 _ _ rest hq ⟨_, _, _, rfl⟩ (by simp [storeAddress, he, Except.toOption]) hf hk.symm
          · exact .raisedAfterFloat _ _ _ hq ⟨_, _, _, rfl⟩ hk.symm (.inl rfl)
    · rcases ea1_cases s bb a1 with ⟨_, h1, _⟩ | ⟨hb, _, h1⟩ <;> rw [h1] at he <;> cases he
      exact .raised _ ht (.inr (.inl ⟨rfl, hb⟩))
  | iout bb a1 a2 =>
    rcases orRaise_next_cases h with ⟨e1, he, hk⟩ | ⟨e, he, ht⟩
    · rcases orRaise_next_cases hk with ⟨w, hw, hk⟩ | ⟨e, hw, ht⟩
      · injection hk with hk
        exact .emitted _ ⟨_, _, _, .inl rfl⟩ hk.symm
      · rcases memRead_cases s.mem e1 with ⟨_, g⟩ | ⟨_, g⟩ <;> rw [g] at hw <;> cases hw
        exact .raised _ ht (.inl rfl)
    · rcases ea1_cases s bb a1 with ⟨_, h1, _⟩ | ⟨hb, _, h1⟩ <;> rw [h1] at he <;> cases he
      exact .raised _ ht (.inr ⟨rfl, hb⟩)
  | rout bb a1 a2 =>
    rcases orRaise_next_cases h with ⟨e1, he, hk⟩ | ⟨e, he, ht⟩
    · rcases orRaise_next_cases hk with ⟨w, hw, hk⟩ | ⟨e, hw, ht⟩
      · injection hk with hk
        exact .emitted _ ⟨_, _, _, .inr rfl⟩ hk.symm
      · rcases memRead_cases s.mem e1 with ⟨_, g⟩ | ⟨_, g⟩ <;> rw [g] at hw <;> cases hw
        exact .raised _ ht (.inl rfl)
    · rcases ea1_cases s bb a1 with ⟨_, h1, _⟩ | ⟨hb, _, h1⟩ <;> rw [h1] at he <;> cases he
      exact .raised _ ht (.inr ⟨rfl, hb⟩)
  | jz bb a1 a2 => exact effect_of_jumpIf h (flagWord_tests s.flags).1.symm rfl fun h hj => ⟨rfl, h, hj⟩
  | jg bb a1 a2 => exact effect_of_jumpIf h (flagWord_tests s.flags).2.1.symm rfl fun h hj => ⟨rfl, h, hj⟩
  | jl bb a1 a2 => exact effect_of_jumpIf h (flagWord_tests s.flags).2.2.symm rfl fun h hj => ⟨rfl, h, hj⟩
  | load bb a1 a2 =>
    rcases orRaise_next_cases h with ⟨e1, he, hk⟩ | ⟨e, he, ht⟩
    · rcases orRaise_next_cases hk with ⟨w, hw, hk⟩ | ⟨e, hw, ht⟩
      · injection hk with hk
        exact .wroteRegister _ _ rfl rfl hk.symm
      · have ha2 := a2.isLt
        rw [memRead_of_fits _ (by simp [zextA2]; omega)] at hw; cases hw
    · rcases checkIndex_cases (a1Index a1) with ⟨_, g⟩ | ⟨_, g⟩ <;> rw [g] at he <;> cases he
      exact .raised _ ht rfl
  | store bb a1 a2 =>
    rcases orRaise_next_cases h with ⟨e1, he, hk⟩ | ⟨e, he, ht⟩
    · have ha1 := a1.isLt
      rcases storeWord_cases s (zextA1 a1) e1 with ⟨hf, g⟩ | ⟨hf, g⟩
      · rw [g] at hk
        injection hk with hk
        exact .storedRegister _ _ ⟨_, _, _, rfl⟩ rfl hf hk.symm
      · simp [zextA1] at hf
        omega
    · rcases regRead_cases s (a2Index a2) with ⟨_, g⟩ | ⟨_, g⟩ | ⟨_, g⟩ <;> rw [g] at he <;> cases he
      exact .raised _ ht rfl
  | addr bb a1 a2 =>
    rcases orRaise_next_cases h with ⟨e1, he, hk⟩ | ⟨e, he, ht⟩
    · injection hk with hk
      exact .wroteRegisterFlags _ _ _ rfl rfl rfl hk.symm
    · rcases registerPair_cases s a1 a2 with ⟨_, _, _, _, g⟩ | ⟨_, g⟩ | ⟨_, _, g⟩ <;>
        rw [g] at he <;> cases he <;> exact .raised _ ht rfl
  | subr bb a1 a2 =>
    rcases orRaise_next_cases h with ⟨e1, he, hk⟩ | ⟨e, he, ht⟩
    · injection hk with hk
      exact .wroteRegisterFlags _ _ _ rfl rfl rfl hk.symm
    · rcases registerPair_cases s a1 a2 with ⟨_, _, _, _, g⟩ | ⟨_, g⟩ | ⟨_, _, g⟩ <;>
        rw [g] at he <;> cases he <;> exact .raised _ ht rfl
  | movr bb a1 a2 =>
    rcases orRaise_next_cases h with ⟨e1, he, hk⟩ | ⟨e, he, ht⟩
    · rcases orRaise_next_cases hk with ⟨w, hw, hk⟩ | ⟨e, hw, ht⟩
      · injection hk with hk
        exact .wroteRegister _ _ rfl rfl hk.symm
      · rcases regRead_cases s (a2Index a2) with ⟨_, g⟩ | ⟨_, g⟩ | ⟨_, g⟩ <;> rw [g] at hw <;> cases hw
        exact .raised _ ht rfl
    · rcases checkIndex_cases (a1Index a1) with ⟨_, g⟩ | ⟨_, g⟩ <;> rw [g] at he <;> cases he
      exact .raised _ ht rfl

/-- Everything a step that answers can do: it starts after a Reset from a state that is not terminal, and either its
fetch raises, or the fetched instruction runs. -/
theorem step_cases {s t : State} (h : step s = .next t) :
    s.resetDone = true ∧ s.stop = false ∧ s.error = false ∧
      ((∃ i, fetchInstr s = .ok i ∧ exec i s = .next t) ∨ ∃ e, fetchInstr s = .error e ∧ t = s.raise e) := by
  unfold step at h
  split at h
  · cases h
  · next hn =>
    rw [Bool.or_eq_true, not_or, Bool.not_eq_true, Bool.not_eq_true] at hn
    split at h
    · next hr =>
      refine ⟨hr, hn.1, hn.2, ?_⟩
      cases hf : fetchInstr s with
      | ok i =>
        rw [hf] at h
        exact .inl ⟨i, rfl, h⟩
      | error e =>
        rw [hf] at h
        injection h with h
        exact .inr ⟨e, rfl, h.symm⟩
    · cases h

end Sys2Proof.Machine
end

