-- ==== Sys2Proof/Laws/Float.lean ====
section
/-! SUPPORT. Binary32 patterns through their bits 30:0, and what rounding gives. -/

namespace Sys2Proof.Machine

/-! ## Patterns -/

theorem magBits_lt (w : Word) : magBits w < 2147483648 := Nat.mod_lt _ (by decide)

theorem expField_toNat (w : Word) : (expField w).toNat = magBits w / 8388608 := by
  unfold expField magBits
  rw [BitVec.extractLsb'_toNat, Nat.shiftRight_eq_div_pow]
  omega

theorem fracField_toNat (w : Word) : (fracField w).toNat = magBits w % 8388608 := by
  unfold fracField magBits
  rw [BitVec.extractLsb'_toNat, Nat.shiftRight_eq_div_pow]
  omega

theorem isNaN_iff (w : Word) : isNaN w = true ↔ infMag < magBits w := by
  have := magBits_lt w
  simp only [isNaN, infMag, Bool.and_eq_true, beq_iff_eq, bne_iff_ne, ne_eq, ← BitVec.toNat_inj, expField_toNat,
    fracField_toNat, BitVec.toNat_ofNat]
  omega

theorem isInf_iff (w : Word) : isInf w = true ↔ magBits w = infMag := by
  have := magBits_lt w
  simp only [isInf, infMag, Bool.and_eq_true, beq_iff_eq, ← BitVec.toNat_inj, expField_toNat, fracField_toNat,
    BitVec.toNat_ofNat]
  omega

theorem isZero_iff (w : Word) : isZero w = true ↔ magBits w = 0 := by
  have := magBits_lt w
  simp only [isZero, Bool.and_eq_true, beq_iff_eq, ← BitVec.toNat_inj, expField_toNat, fracField_toNat,
    BitVec.toNat_ofNat]
  omega

theorem packFloat_toNat (neg : Bool) {mag : Nat} (h : mag ≤ infMag) :
    (packFloat neg mag).toNat = neg.toNat * 2147483648 + mag := by
  simp only [infMag] at h
  unfold packFloat
  rw [BitVec.toNat_append, ← Nat.shiftLeft_add_eq_or_of_lt (BitVec.ofNat 31 mag).isLt, Nat.shiftLeft_eq]
  cases neg <;> simp
  all_goals omega

theorem magBits_packFloat (neg : Bool) {mag : Nat} (h : mag ≤ infMag) : magBits (packFloat neg mag) = mag := by
  unfold magBits
  rw [packFloat_toNat neg h]
  simp only [infMag] at h
  cases neg <;> simp
  all_goals omega

theorem signBit_packFloat (neg : Bool) {mag : Nat} (h : mag ≤ infMag) : signBit (packFloat neg mag) = neg := by
  unfold signBit
  rw [BitVec.msb_eq_decide, packFloat_toNat neg h]
  simp only [infMag] at h
  cases neg <;> simp
  all_goals omega

theorem negate_toNat (w : Word) : (negate w).toNat = w.toNat ^^^ 2147483648 := by
  unfold negate
  rw [BitVec.toNat_xor]
  rfl

theorem magBits_negate (w : Word) : magBits (negate w) = magBits w := by
  unfold magBits
  rw [negate_toNat, Nat.xor_mod_two_pow]
  simp

theorem signBit_negate (w : Word) : signBit (negate w) = !signBit w := by
  unfold signBit negate
  rw [BitVec.msb_xor]
  simp [show (0x80000000#32).msb = true by decide]

theorem units_negate (w : Word) : units (negate w) = -units w := by
  unfold units absUnits
  rw [magBits_negate, signBit_negate]
  cases signBit w <;> simp

/-! ## Magnitudes rise with their patterns -/

/-- A pattern's magnitude from the significand and the shift it packs; a carry out of the significand included. -/
theorem magUnits_pack {k m : Nat} (hm : m ≤ 16777216) (h : k = 0 ∨ 8388608 ≤ m) :
    magUnits (k * 8388608 + m) = m * 2 ^ k := by
  have hp : (2 : Nat) ^ 23 = 8388608 := by norm_num
  unfold magUnits
  rw [hp]
  rcases Nat.lt_or_ge m 8388608 with h1 | h1
  · obtain rfl : k = 0 := by omega
    rw [if_pos (by omega)]
    simp only [Nat.zero_mul, Nat.zero_add, Nat.pow_zero, Nat.mul_one]
    omega
  · rcases Nat.lt_or_ge m 16777216 with h2 | h2
    · rw [show (k * 8388608 + m) / 8388608 = k + 1 by omega, show (k * 8388608 + m) % 8388608 = m - 8388608 by omega,
        if_neg (by omega), Nat.add_sub_cancel, Nat.add_sub_cancel' h1]
    · obtain rfl : m = 16777216 := by omega
      rw [show (k * 8388608 + 16777216) / 8388608 = k + 2 by omega,
        show (k * 8388608 + 16777216) % 8388608 = 0 by omega, if_neg (by omega), show k + 2 - 1 = k + 1 from rfl,
        Nat.pow_succ]
      omega

theorem magUnits_lt_succ (u : Nat) : magUnits u < magUnits (u + 1) := by
  obtain ⟨k, m, rfl, hm, h⟩ : ∃ k m, u = k * 8388608 + m ∧ m < 16777216 ∧ (k = 0 ∨ 8388608 ≤ m) := by
    by_cases hu : u < 8388608
    · exact ⟨0, u, by omega, by omega, .inl rfl⟩
    · exact ⟨u / 8388608 - 1, u % 8388608 + 8388608, by omega, by omega, .inr (by omega)⟩
  rw [magUnits_pack (by omega) h, Nat.add_assoc, magUnits_pack (by omega) (by omega)]
  exact Nat.mul_lt_mul_of_pos_right (by omega) (Nat.two_pow_pos k)

theorem magUnits_strictMono : StrictMono magUnits := strictMono_nat_of_lt_succ magUnits_lt_succ

/-! ## Rounding -/

/-- Where the quotient `p / q` lies: above the pattern `k * 2^23 + m` by `rest` of the `q * 2^k` to the next one. -/
theorem cutMag_parts (p : Nat) {q : Nat} (hq : 0 < q) :
    ∃ k m : Nat, p = q * 2 ^ k * m + (cutMag p q).rest ∧ (cutMag p q).rest < q * 2 ^ k ∧ m < 16777216 ∧
      (k = 0 ∨ 8388608 ≤ m) ∧ (cutMag p q).below = k * 8388608 + m ∧ (cutMag p q).gap = q * 2 ^ k := by
  have hd : ∀ k : Nat, 0 < q * 2 ^ k := fun k => Nat.mul_pos hq (Nat.two_pow_pos k)
  refine ⟨Nat.log2 (p / q) - 23, p / (q * 2 ^ (Nat.log2 (p / q) - 23)), (Nat.div_add_mod _ _).symm,
    Nat.mod_lt _ (hd _), ?_, ?_, ?_, rfl⟩
  · rw [← Nat.div_div_eq_div_mul]
    rcases Nat.eq_zero_or_pos (p / q) with h0 | h0
    · rw [h0]
      norm_num
    · have := Nat.lt_log2_self (n := p / q)
      rw [Nat.div_lt_iff_lt_mul (Nat.two_pow_pos _), show 16777216 = 2 ^ 24 by norm_num, ← Nat.pow_add]
      exact Nat.lt_of_lt_of_le this (Nat.pow_le_pow_right (by decide) (by omega))
  · by_cases h : Nat.log2 (p / q) - 23 = 0
    · exact .inl h
    · right
      have h0 : p / q ≠ 0 := by
        intro h0
        rw [h0] at h
        simp at h
      have := Nat.log2_self_le h0
      rw [← Nat.div_div_eq_div_mul, Nat.le_div_iff_mul_le (Nat.two_pow_pos _), show 8388608 = 2 ^ 23 by norm_num,
        ← Nat.pow_add]
      exact Nat.le_trans (Nat.pow_le_pow_right (by decide) (by omega)) this
  · norm_num [cutMag]

/-- Everything the cut says: the quotient lies at `rest` above the pattern `below`, short of the `gap` to the next. -/
theorem cutMag_spec (p : Nat) {q : Nat} (hq : 0 < q) :
    magUnits (cutMag p q).below * q + (cutMag p q).rest = p ∧ (cutMag p q).rest < (cutMag p q).gap ∧
      magUnits ((cutMag p q).below + 1) * q = magUnits (cutMag p q).below * q + (cutMag p q).gap := by
  obtain ⟨k, m, e, lt, hm, h, hb, hg⟩ := cutMag_parts p hq
  rw [hb, hg, magUnits_pack (Nat.le_of_lt hm) h, Nat.add_assoc, magUnits_pack (by omega) (by omega)]
  refine ⟨?_, lt, by ring⟩
  conv_rhs => rw [e]
  ring

/-- A pattern whose magnitude does not exceed the quotient is at most `below`. -/
theorem le_below_of_le {p q u : Nat} (hq : 0 < q) (h : magUnits u * q ≤ p) : u ≤ (cutMag p q).below := by
  obtain ⟨e, lt, hg⟩ := cutMag_spec p hq
  by_contra hc
  have hs : (cutMag p q).below + 1 ≤ u := Nat.lt_of_not_le hc
  have := Nat.mul_le_mul_right q (magUnits_strictMono.monotone hs)
  omega

/-- A pattern whose magnitude is at least the quotient is at least `below`, and more if the quotient lies above it. -/
theorem below_le_of_le {p q u : Nat} (hq : 0 < q) (h : p ≤ magUnits u * q) :
    (cutMag p q).below ≤ u ∧ ((cutMag p q).rest ≠ 0 → (cutMag p q).below < u) := by
  obtain ⟨e, lt, hg⟩ := cutMag_spec p hq
  refine ⟨?_, fun hr => ?_⟩
  · by_contra hc
    have := Nat.mul_lt_mul_of_pos_right (magUnits_strictMono (Nat.lt_of_not_le hc)) hq
    omega
  · by_contra hc
    have := Nat.mul_le_mul_right q (magUnits_strictMono.monotone (Nat.le_of_not_lt hc))
    omega

/-- A literal is rounded to a neighbour of its value, and to the value itself where binary32 has it
(70_reset_and_hazards.md R275). -/
theorem literalMag_neighbour (up : Bool) (p : Nat) {q : Nat} (hq : 0 < q) :
    literalMag up p q ≤ infMag ∧
      ∀ u : Nat, u < infMag → (magUnits u * q ≤ p → u ≤ literalMag up p q) ∧
        (p ≤ magUnits u * q → literalMag up p q ≤ u) := by
  have hlo : ∀ u : Nat, magUnits u * q ≤ p → u ≤ (cutMag p q).below := fun u => le_below_of_le hq
  have hhi : ∀ u : Nat, p ≤ magUnits u * q → _ := fun u => below_le_of_le hq (u := u)
  unfold literalMag
  have hb := Bool.toNat_le up
  obtain ⟨last, hs⟩ : ∃ last, infMag = last + 1 := ⟨infMag - 1, rfl⟩
  rw [hs, Nat.add_sub_cancel]
  dsimp only
  split
  · next hc =>
    exact ⟨by omega, fun u hu => ⟨hlo u, fun h => (hhi u h).1⟩⟩
  · next hc =>
    refine ⟨by omega, fun u hu => ⟨fun h => ?_, fun h => ?_⟩⟩
    · have := hlo u h
      omega
    · obtain ⟨h1, h2⟩ := hhi u h
      have := h2 (by omega)
      omega

theorem roundMag_le (p q : Nat) : roundMag p q ≤ infMag := Nat.min_le_right _ _

/-- The pattern at the greatest finite value and the one above it, in units. -/
theorem magUnits_infMag : magUnits infMag = 2 * (16777216 * 2 ^ 252) ∧
    magUnits (infMag - 1) + 2 * 2 ^ 252 = 2 * (16777216 * 2 ^ 252) := by
  have h1 : magUnits infMag = 16777216 * 2 ^ 253 := magUnits_pack (k := 253) (m := 16777216) (by decide) (by decide)
  have h2 : magUnits (infMag - 1) = 16777215 * 2 ^ 253 :=
    magUnits_pack (k := 253) (m := 16777215) (by decide) (by decide)
  rw [h1, h2]
  constructor <;> norm_num

/-- `roundMag` gives the nearest pattern, the even one on a tie, and infinity from the midpoint above the greatest
finite value on (42_float_arith.md R165). -/
theorem roundMag_nearest (p : Nat) {q : Nat} (hq : 0 < q) :
    if q * ((2 ^ 25 - 1) * 2 ^ 252) ≤ p then roundMag p q = infMag
    else
      roundMag p q < infMag ∧
        ∀ u : Nat, u < infMag →
          scaledDistance (roundMag p q) p q ≤ scaledDistance u p q ∧
            (scaledDistance u p q = scaledDistance (roundMag p q) p q → u = roundMag p q ∨ roundMag p q % 2 = 0) := by
  obtain ⟨eL, lt, eH⟩ := cutMag_spec p hq
  unfold roundMag
  dsimp only
  generalize (cutMag p q).below = lo at eL eH ⊢
  generalize (cutMag p q).rest = r at eL lt ⊢
  generalize (cutMag p q).gap = d at lt eH ⊢
  obtain ⟨hI, hM⟩ := magUnits_infMag
  have dlo : ∀ u, u ≤ lo → magUnits u * q ≤ magUnits lo * q := fun u hu =>
    Nat.mul_le_mul_right _ (magUnits_strictMono.monotone hu)
  have dlo' : ∀ u, u < lo → magUnits u * q < magUnits lo * q := fun u hu =>
    Nat.mul_lt_mul_of_pos_right (magUnits_strictMono hu) hq
  have dhi : ∀ u, lo + 1 ≤ u → magUnits (lo + 1) * q ≤ magUnits u * q := fun u hu =>
    Nat.mul_le_mul_right _ (magUnits_strictMono.monotone hu)
  have dhi' : ∀ u, lo + 1 < u → magUnits (lo + 1) * q < magUnits u * q := fun u hu =>
    Nat.mul_lt_mul_of_pos_right (magUnits_strictMono hu) hq
  -- the greatest finite pattern is odd, and its gap is `2 * 2^252` units
  have hmax : lo = infMag - 1 → d = 2 * (q * 2 ^ 252) := by
    intro hl
    have h2 : lo + 1 = infMag := by rw [hl]; rfl
    rw [h2, hI, hl] at eH
    have h3 : (2 * (16777216 * 2 ^ 252)) * q = magUnits (infMag - 1) * q + 2 * (q * 2 ^ 252) := by
      rw [← hM]
      ring
    rw [h3] at eH
    exact (Nat.add_left_cancel eH).symm
  have hI' : magUnits infMag * q = magUnits (infMag - 1) * q + 2 * (q * 2 ^ 252) := by
    rw [hI, ← hM]
    ring
  have hT : q * ((2 ^ 25 - 1) * 2 ^ 252) = magUnits (infMag - 1) * q + q * 2 ^ 252 := by
    have h4 : magUnits (infMag - 1) = (2 ^ 25 - 2) * 2 ^ 252 := by
      have h5 : 2 * (16777216 * 2 ^ 252) = (2 ^ 25 - 2) * 2 ^ 252 + 2 * 2 ^ 252 := by norm_num
      exact Nat.add_right_cancel (hM.trans h5)
    rw [h4, show (2 : Nat) ^ 25 - 1 = 2 ^ 25 - 2 + 1 by norm_num]
    ring
  have hpos : 0 < q * 2 ^ 252 := Nat.mul_pos hq (Nat.two_pow_pos 252)
  rw [hT]
  clear hT hI hM
  generalize q * 2 ^ 252 = half at *
  obtain ⟨hs, hodd⟩ : infMag - 1 + 1 = infMag ∧ (infMag - 1) % 2 = 1 := by decide
  generalize infMag - 1 = last at *
  generalize infMag = inf at *
  subst hs
  generalize hM1 : magUnits last * q = top at *
  split
  · next hp =>
    by_cases c1 : (last + 1) ≤ lo
    · exact Nat.min_eq_right (Nat.le_add_right_of_le c1)
    by_cases c2 : lo = last
    · have hd := hmax c2
      have : magUnits lo * q = top := by rw [c2, hM1]
      rw [if_pos (by omega)]
      omega
    · have := dhi (last) (by omega)
      omega
  · next hp =>
    have c1 : lo < (last + 1) := by
      by_contra hc
      have := dlo (last + 1) (by omega)
      omega
    have c2 : lo = last → 2 * r < d := by
      intro hl
      have hd := hmax hl
      have : magUnits lo * q = top := by rw [hl, hM1]
      omega
    split
    · next hc =>
      have hlo : lo + 1 < (last + 1) := by
        by_cases c3 : lo = last
        · have := c2 c3
          omega
        · omega
      rw [Nat.min_eq_left hlo.le]
      refine ⟨hlo, fun u hu => ?_⟩
      unfold scaledDistance
      rcases Nat.lt_or_ge lo u with h1 | h1
      · have a := dhi u h1
        by_cases h2 : u = lo + 1
        · subst h2
          omega
        · have b := dhi' u (by omega)
          exact ⟨by omega, by omega⟩
      · have a := dlo u h1
        by_cases h2 : u = lo
        · subst h2
          exact ⟨by omega, by omega⟩
        · have b := dlo' u (by omega)
          exact ⟨by omega, by omega⟩
    · next hc =>
      rw [Nat.add_zero, Nat.min_eq_left c1.le]
      refine ⟨c1, fun u hu => ?_⟩
      unfold scaledDistance
      rcases Nat.lt_or_ge lo u with h1 | h1
      · have a := dhi u h1
        by_cases h2 : u = lo + 1
        · subst h2
          exact ⟨by omega, by omega⟩
        · have b := dhi' u (by omega)
          exact ⟨by omega, by omega⟩
      · have a := dlo u h1
        by_cases h2 : u = lo
        · subst h2
          omega
        · have b := dlo' u (by omega)
          exact ⟨by omega, by omega⟩

theorem nearestEven_packFloat (neg : Bool) (p : Nat) {q : Nat} (hq : 0 < q) :
    NearestEven neg p q (packFloat neg (roundMag p q)) := by
  refine ⟨signBit_packFloat neg (roundMag_le p q), ?_⟩
  rw [magBits_packFloat neg (roundMag_le p q)]
  exact roundMag_nearest p hq

end Sys2Proof.Machine
end

