-- ==== Sys2Proof/Laws/Loading.lean ====
section
/-! SUPPORT. Everything a word directive of the loader can do, and the word that `k` packs. -/

namespace Sys2Proof.Machine

/-- Everything the loader's word write can answer. -/
theorem writeWord_cases (st : LoaderState) (w : Word) :
    (st.cur + 3 < 65536 ∧ st.writeWord w = .ok { st with mem := st.mem.setWord st.cur w, cur := st.cur + 1 }) ∨
      (65536 ≤ st.cur + 3 ∧ st.writeWord w = .error .writeOutOfBounds) := by
  unfold LoaderState.writeWord preloadWriteWord
  by_cases h : st.cur + 3 < 65536
  · exact .inl ⟨h, by rw [if_pos h]⟩
  · exact .inr ⟨Nat.le_of_not_lt h, by rw [if_neg h]⟩

/-- The packed word as a sum of its fields (30_encoding.md R81). -/
theorem packWord_ofNat (op : Nat) {bb : Nat} (hbb : bb < 4) (a1 a2 : Nat) :
    packWord (BitVec.ofNat 8 op) (BitVec.ofNat 2 bb) (BitVec.ofNat 12 a1) (BitVec.ofNat 10 a2) =
      BitVec.ofNat 32 (op * 2 ^ 24 + bb * 2 ^ 22 + a1 % 2 ^ 12 * 2 ^ 10 + a2 % 2 ^ 10) := by
  apply BitVec.eq_of_toNat_eq
  unfold packWord
  have h1 : a1 % 2 ^ 12 < 2 ^ 12 := Nat.mod_lt _ (by decide)
  have h2 : a2 % 2 ^ 10 < 2 ^ 10 := Nat.mod_lt _ (by decide)
  rw [BitVec.toNat_append, BitVec.toNat_append, BitVec.toNat_append, BitVec.toNat_ofNat, BitVec.toNat_ofNat,
    BitVec.toNat_ofNat, BitVec.toNat_ofNat, BitVec.toNat_ofNat, ← Nat.shiftLeft_add_eq_or_of_lt h2,
    ← Nat.shiftLeft_add_eq_or_of_lt h1, ← Nat.shiftLeft_add_eq_or_of_lt (Nat.mod_lt _ (by decide)), Nat.shiftLeft_eq,
    Nat.shiftLeft_eq, Nat.shiftLeft_eq]
  omega

/-- A word directive does what the word write does. -/
theorem applyDirective_of_word {d : Directive} {w : Word} (h : directiveWord d = some w) (st : LoaderState) :
    applyDirective st d =
      match st.writeWord w with
      | .ok st' => .ok (.more st')
      | .error reason => .error reason := by
  cases d with
  | a _ => cases h
  | e _ => cases h
  | s => cases h
  | i v =>
    simp only [directiveWord] at h
    split at h
    · next hv =>
      injection h with h
      subst h
      exact if_pos hv
    · cases h
  | r bits =>
    injection h with h
    subst h
    rfl
  | k op bb a1 a2 =>
    simp only [directiveWord] at h
    split at h
    · next hv =>
      injection h with h
      rw [← packWord_ofNat op (by omega)] at h
      subst h
      exact if_pos hv
    · cases h

end Sys2Proof.Machine
end

