-- ==== Sys2Proof/Laws/PerInstr.lean ====
section
/-! SUPPORT. The statements made per instruction: decoding the word of an instruction gives it back. -/

namespace Sys2Proof.Laws

/-- The word of `i` decodes to `i` (30_encoding.md R81: decoding inverts the packing). -/
def DecodeEncode.Statement (i : Instr) : Prop := decodeWord (encode i) = .ok i

theorem DecodeEncode.stop (bb : Mode) (a1 : Addr1) (a2 : Addr2) : DecodeEncode.Statement (.stop bb a1 a2) :=
  decodeWord_packWord (row := ⟨0x00#8, .stop⟩) rfl bb a1 a2

theorem DecodeEncode.iadd (bb : Mode) (a1 : Addr1) (a2 : Addr2) : DecodeEncode.Statement (.iadd bb a1 a2) :=
  decodeWord_packWord (row := ⟨0x01#8, .iadd⟩) rfl bb a1 a2

theorem DecodeEncode.isub (bb : Mode) (a1 : Addr1) (a2 : Addr2) : DecodeEncode.Statement (.isub bb a1 a2) :=
  decodeWord_packWord (row := ⟨0x02#8, .isub⟩) rfl bb a1 a2

theorem DecodeEncode.imul (bb : Mode) (a1 : Addr1) (a2 : Addr2) : DecodeEncode.Statement (.imul bb a1 a2) :=
  decodeWord_packWord (row := ⟨0x03#8, .imul⟩) rfl bb a1 a2

theorem DecodeEncode.idiv (bb : Mode) (a1 : Addr1) (a2 : Addr2) : DecodeEncode.Statement (.idiv bb a1 a2) :=
  decodeWord_packWord (row := ⟨0x04#8, .idiv⟩) rfl bb a1 a2

theorem DecodeEncode.iin (bb : Mode) (a1 : Addr1) (a2 : Addr2) : DecodeEncode.Statement (.iin bb a1 a2) :=
  decodeWord_packWord (row := ⟨0x11#8, .iin⟩) rfl bb a1 a2

theorem DecodeEncode.iout (bb : Mode) (a1 : Addr1) (a2 : Addr2) : DecodeEncode.Statement (.iout bb a1 a2) :=
  decodeWord_packWord (row := ⟨0x12#8, .iout⟩) rfl bb a1 a2

theorem DecodeEncode.addr (bb : Mode) (a1 : Addr1) (a2 : Addr2) : DecodeEncode.Statement (.addr bb a1 a2) :=
  decodeWord_packWord (row := ⟨0x14#8, .addr⟩) rfl bb a1 a2

theorem DecodeEncode.subr (bb : Mode) (a1 : Addr1) (a2 : Addr2) : DecodeEncode.Statement (.subr bb a1 a2) :=
  decodeWord_packWord (row := ⟨0x15#8, .subr⟩) rfl bb a1 a2

theorem DecodeEncode.movr (bb : Mode) (a1 : Addr1) (a2 : Addr2) : DecodeEncode.Statement (.movr bb a1 a2) :=
  decodeWord_packWord (row := ⟨0x16#8, .movr⟩) rfl bb a1 a2

theorem DecodeEncode.radd (bb : Mode) (a1 : Addr1) (a2 : Addr2) : DecodeEncode.Statement (.radd bb a1 a2) :=
  decodeWord_packWord (row := ⟨0x21#8, .radd⟩) rfl bb a1 a2

theorem DecodeEncode.rsub (bb : Mode) (a1 : Addr1) (a2 : Addr2) : DecodeEncode.Statement (.rsub bb a1 a2) :=
  decodeWord_packWord (row := ⟨0x22#8, .rsub⟩) rfl bb a1 a2

theorem DecodeEncode.rmul (bb : Mode) (a1 : Addr1) (a2 : Addr2) : DecodeEncode.Statement (.rmul bb a1 a2) :=
  decodeWord_packWord (row := ⟨0x23#8, .rmul⟩) rfl bb a1 a2

theorem DecodeEncode.rdiv (bb : Mode) (a1 : Addr1) (a2 : Addr2) : DecodeEncode.Statement (.rdiv bb a1 a2) :=
  decodeWord_packWord (row := ⟨0x24#8, .rdiv⟩) rfl bb a1 a2

theorem DecodeEncode.rin (bb : Mode) (a1 : Addr1) (a2 : Addr2) : DecodeEncode.Statement (.rin bb a1 a2) :=
  decodeWord_packWord (row := ⟨0x31#8, .rin⟩) rfl bb a1 a2

theorem DecodeEncode.rout (bb : Mode) (a1 : Addr1) (a2 : Addr2) : DecodeEncode.Statement (.rout bb a1 a2) :=
  decodeWord_packWord (row := ⟨0x32#8, .rout⟩) rfl bb a1 a2

theorem DecodeEncode.jz (bb : Mode) (a1 : Addr1) (a2 : Addr2) : DecodeEncode.Statement (.jz bb a1 a2) :=
  decodeWord_packWord (row := ⟨0x41#8, .jz⟩) rfl bb a1 a2

theorem DecodeEncode.jg (bb : Mode) (a1 : Addr1) (a2 : Addr2) : DecodeEncode.Statement (.jg bb a1 a2) :=
  decodeWord_packWord (row := ⟨0x42#8, .jg⟩) rfl bb a1 a2

theorem DecodeEncode.jl (bb : Mode) (a1 : Addr1) (a2 : Addr2) : DecodeEncode.Statement (.jl bb a1 a2) :=
  decodeWord_packWord (row := ⟨0x43#8, .jl⟩) rfl bb a1 a2

theorem DecodeEncode.load (bb : Mode) (a1 : Addr1) (a2 : Addr2) : DecodeEncode.Statement (.load bb a1 a2) :=
  decodeWord_packWord (row := ⟨0x44#8, .load⟩) rfl bb a1 a2

theorem DecodeEncode.store (bb : Mode) (a1 : Addr1) (a2 : Addr2) : DecodeEncode.Statement (.store bb a1 a2) :=
  decodeWord_packWord (row := ⟨0x45#8, .store⟩) rfl bb a1 a2

end Sys2Proof.Laws
end

