-- ==== Sys2Proof/Tests/Slice0.lean ====
section
/-! SUPPORT. Tests of the model against the vectors of 95_test_vectors.md, and states that meet the hypotheses of the
statements. Expected values come from the file named at each group, none from the model. -/

namespace Sys2Proof.Machine.Tests

/-! ## Helpers -/

/-- IP is 0x10 and the word `w` stands there; the rest is as after reset. -/
def placed (w : Word) : State := { State.reset with ip := 0x10#16, mem := Memory.setWord [] 0x10 w }

/-- `placed w` with the word `x` at `a`. -/
def withCell (w : Word) (a : Nat) (x : Word) : State := { placed w with mem := (placed w).mem.setWord a x }

/-- `placed w` with `[0x100] = a` and `[0x104] = b`: the setup of 95_test_vectors.md sections 2.1 and 2.2. -/
def withPair (w a b : Word) : State :=
  { placed w with mem := ((placed w).mem.setWord 0x100 a).setWord 0x104 b }

/-- `placed w` with R0 and R1. -/
def withRegs (w x0 x1 : Word) : State := { placed w with r0 := x0, r1 := x1 }

/-- `placed w` with the flags S, V, Z and C. -/
def withFlagBits (w : Word) (s v z c : Bool) : State := { placed w with flags := { s := s, v := v, z := z, c := c } }

/-- What a test looks at: the word at `a`, the flag word, IP and ERR. -/
def seen (a : Nat) : Result → Option (Word × BitVec 16 × Addr × ErrKind)
  | .next t => some (t.mem.wordAt a, flagWord t.flags, t.ip, t.err)
  | .fault _ => none
  | .refused _ => none

/-- What a test of a register instruction looks at: R0, R1, the flag word, IP and ERR. -/
def seenRegs : Result → Option (Word × Word × BitVec 16 × Addr × ErrKind)
  | .next t => some (t.r0, t.r1, flagWord t.flags, t.ip, t.err)
  | .fault _ => none
  | .refused _ => none

/-- What a test of an output instruction looks at: OUT, IP and ERR. -/
def seenOut : Result → Option (List OutEvent × Addr × ErrKind)
  | .next t => some (t.out, t.ip, t.err)
  | .fault _ => none
  | .refused _ => none

/-- The next state, where there is one. -/
def nextOf : Result → Option State
  | .next t => some t
  | .fault _ => none
  | .refused _ => none

/-! ## WellFormed: an ill-formed term for each check (10_state.md R22, 30_encoding.md R93) -/

theorem test_wellFormed_refuses_indirect_r5 : (Instr.iadd .indirect 0x005#12 0#10).wellFormed = false := by decide
theorem test_wellFormed_refuses_displaced_r2 : (Instr.rdiv .indirectDisp 0x122#12 0#10).wellFormed = false := by decide
theorem test_wellFormed_refuses_input_r5 : (Instr.iin .indirect 0x005#12 0#10).wellFormed = false := by decide
theorem test_wellFormed_refuses_jump_r7 : (Instr.jz .indirect 0x007#12 0#10).wellFormed = false := by decide
theorem test_wellFormed_refuses_destination_r7 : (Instr.load .absolute 0x007#12 0x24#10).wellFormed = false := by decide
theorem test_wellFormed_refuses_stored_r2 : (Instr.store .absolute 0x100#12 0x002#10).wellFormed = false := by decide
theorem test_wellFormed_refuses_first_of_pair : (Instr.addr .absolute 0x002#12 0x001#10).wellFormed = false := by decide
theorem test_wellFormed_refuses_second_of_pair : (Instr.movr .absolute 0x001#12 0x003#10).wellFormed = false := by decide
theorem test_wellFormed_accepts_unread_index : (Instr.iadd .absolute 0xFFF#12 0x3FF#10).wellFormed = true := by decide

/-! ## Decoding: one written-out word for every constructor (95_test_vectors.md sections 2 and 3) -/

theorem test_decode_stop : decodeTableWord 32 0x00000001 = some (.stop .absolute 0x000#12 0x001#10) := by decide
theorem test_decode_iadd : decodeTableWord 32 0x01444424 = some (.iadd .dispR0 0x111#12 0x024#10) := by decide
theorem test_decode_isub : decodeTableWord 32 0x02040104 = some (.isub .absolute 0x100#12 0x104#10) := by decide
theorem test_decode_imul : decodeTableWord 32 0x03040104 = some (.imul .absolute 0x100#12 0x104#10) := by decide
theorem test_decode_idiv : decodeTableWord 32 0x044003FF = some (.idiv .dispR0 0x000#12 0x3FF#10) := by decide
theorem test_decode_iin : decodeTableWord 32 0x11801400 = some (.iin .indirect 0x005#12 0x000#10) := by decide
theorem test_decode_iout : decodeTableWord 32 0x12C40400 = some (.iout .indirectDisp 0x101#12 0x000#10) := by decide
theorem test_decode_addr : decodeTableWord 32 0x14000803 = some (.addr .absolute 0x002#12 0x003#10) := by decide
theorem test_decode_subr : decodeTableWord 32 0x15000001 = some (.subr .absolute 0x000#12 0x001#10) := by decide
theorem test_decode_movr : decodeTableWord 32 0x16001400 = some (.movr .absolute 0x005#12 0x000#10) := by decide
theorem test_decode_radd : decodeTableWord 32 0x21040104 = some (.radd .absolute 0x100#12 0x104#10) := by decide
theorem test_decode_rsub : decodeTableWord 32 0x22040104 = some (.rsub .absolute 0x100#12 0x104#10) := by decide
theorem test_decode_rmul : decodeTableWord 32 0x232320D0 = some (.rmul .absolute 0x8C8#12 0x0D0#10) := by decide
theorem test_decode_rdiv : decodeTableWord 32 0x24322323 = some (.rdiv .absolute 0xC88#12 0x323#10) := by decide
theorem test_decode_rin : decodeTableWord 32 0x31080000 = some (.rin .absolute 0x200#12 0x000#10) := by decide
theorem test_decode_rout : decodeTableWord 32 0x32080000 = some (.rout .absolute 0x200#12 0x000#10) := by decide
theorem test_decode_jz : decodeTableWord 32 0x41440000 = some (.jz .dispR0 0x100#12 0x000#10) := by decide
theorem test_decode_jg : decodeTableWord 32 0x420C0000 = some (.jg .absolute 0x300#12 0x000#10) := by decide
theorem test_decode_jl : decodeTableWord 32 0x43C80400 = some (.jl .indirectDisp 0x201#12 0x000#10) := by decide
theorem test_decode_load : decodeTableWord 32 0x44001C24 = some (.load .absolute 0x007#12 0x024#10) := by decide
theorem test_decode_store : decodeTableWord 32 0x45FFFFFF = some (.store .indirectDisp 0xFFF#12 0x3FF#10) := by decide
theorem test_decode_refuses_absent : decodeTableWord 32 0x13000000 = none ∧ decodeTableWord 32 0x46000000 = none ∧
    decodeTableWord 32 0xFF123456 = none := by decide
theorem test_decode_refuses_three_bytes : decodeBytes [0x01#8, 0x02#8, 0x03#8] = .error (.tooShort 3) := by decide
theorem test_encode_store : encodeBytes (.store .absolute 0x14D#12 0x001#10) = [0x01#8, 0x34#8, 0x05#8, 0x45#8] := by
  decide

/-! ## Integer arithmetic (95_test_vectors.md section 2.1) -/

theorem test_iadd_overflows : seen 0x100 (step (withPair 0x01040104#32 0x7FFFFFFF#32 1#32)) =
    some (0x80000000#32, 0x8801#16, 0x11#16, .none) := by decide
theorem test_iadd_wrapped_zero_has_no_overflow : seen 0x100 (step (withPair 0x01040104#32 0x80000000#32 0x80000000#32)) =
    some (0#32, 0x0400#16, 0x11#16, .none) := by decide
theorem test_isub_borrows : seen 0x100 (step (withPair 0x02040104#32 1#32 0xFFFFFFFF#32)) =
    some (2#32, 0x0001#16, 0x11#16, .none) := by decide
theorem test_isub_overflows : seen 0x100 (step (withPair 0x02040104#32 0x80000000#32 1#32)) =
    some (0x7FFFFFFF#32, 0x0800#16, 0x11#16, .none) := by decide
theorem test_imul_overflow_missed : seen 0x100 (step (withPair 0x03040104#32 0x80000000#32 0xFFFFFFFF#32)) =
    some (0x80000000#32, 0x8000#16, 0x11#16, .none) := by decide
theorem test_imul_overflow_seen : seen 0x100 (step (withPair 0x03040104#32 0xFFFFFFFF#32 0x80000000#32)) =
    some (0x80000000#32, 0x8800#16, 0x11#16, .none) := by decide
theorem test_idiv_truncates : seen 0x100 (step (withPair 0x04040104#32 0xFFFFFFF9#32 2#32)) =
    some (0xFFFFFFFD#32, 0x8000#16, 0x11#16, .none) := by decide
theorem test_idiv_by_zero : seen 0x100 (step (withPair 0x04040104#32 10#32 0#32)) =
    some (10#32, 0x0000#16, 0x10#16, .divByZero) := by decide

/-! ## Floating-point arithmetic (95_test_vectors.md section 2.2) -/

theorem test_radd_rounds_to_even : seen 0x100 (step (withPair 0x21040104#32 0x3F800000#32 0x33800000#32)) =
    some (0x3F800000#32, 0x0000#16, 0x11#16, .none) := by decide
theorem test_radd_overflows : seen 0x100 (step (withPair 0x21040104#32 0x7F7FFFFF#32 0x7F7FFFFF#32)) =
    some (0x7F800000#32, 0x0000#16, 0x11#16, .none) := by decide
theorem test_rsub_negative : seen 0x100 (step (withPair 0x22040104#32 0x3F800000#32 0x40200000#32)) =
    some (0xBFC00000#32, 0x8000#16, 0x11#16, .none) := by decide
theorem test_rsub_negative_zero : seen 0x100 (step (withPair 0x22040104#32 0x80000000#32 0#32)) =
    some (0x80000000#32, 0x0400#16, 0x11#16, .none) := by decide
theorem test_rmul_subnormal : seen 0x100 (step (withPair 0x23040104#32 0x00800000#32 0x3F000000#32)) =
    some (0x00400000#32, 0x0000#16, 0x11#16, .none) := by decide
theorem test_rmul_underflows : seen 0x100 (step (withPair 0x23040104#32 0x0DA24260#32 0x0DA24260#32)) =
    some (0#32, 0x0400#16, 0x11#16, .none) := by decide
theorem test_rdiv_third : seen 0x100 (step (withPair 0x24040104#32 0x3F800000#32 0x40400000#32)) =
    some (0x3EAAAAAB#32, 0x0000#16, 0x11#16, .none) := by decide
theorem test_rdiv_by_negative_zero : seen 0x100 (step (withPair 0x24040104#32 0x3F800000#32 0x80000000#32)) =
    some (0x3F800000#32, 0x0000#16, 0x10#16, .divByZero) := by decide
/-- The three invalid operations of the table give no number, so `FP_NAN` is written. -/
theorem test_invalid_operations : fadd 0x7F800000#32 0xFF800000#32 = none ∧ fmul 0x7F800000#32 0#32 = none ∧
    fdiv 0x7F800000#32 0x7F800000#32 = none := by decide

/-! ## Console input and output (95_test_vectors.md section 2.3) -/

theorem test_iin_stores : seen 0x200 (step { placed 0x11080000#32 with intIn := [.int 0xFFFFFFFF#32] }) =
    some (0xFFFFFFFF#32, 0x0000#16, 0x11#16, .none) := by decide
theorem test_iin_loses_the_answer :
    (nextOf (step { withRegs 0x11800000#32 0xFFFFFFFF#32 0#32 with intIn := [.int 7#32] })).map
      (fun t => (t.err, t.ip, t.intIn)) = some (.outOfBounds, 0x10#16, []) := by decide
theorem test_rin_stores : seen 0x200 (step { placed 0x31080000#32 with floatIn := [.float 0x40600000#32] }) =
    some (0x40600000#32, 0x0000#16, 0x11#16, .none) := by decide
theorem test_rin_fails : seen 0x200 (step { placed 0x31080000#32 with floatIn := [.fail] }) =
    some (0#32, 0x0000#16, 0x10#16, .ioError) := by decide
theorem test_iout_command_word : seenOut (step (withCell 0x12080000#32 0x200 0x01040101#32)) =
    some ([.int 17039617], 0x11#16, .none) := by decide
theorem test_iout_out_of_bounds : seenOut (step (withRegs 0x12400400#32 0xFFFC#32 0#32)) =
    some ([], 0x10#16, .outOfBounds) := by decide
theorem test_rout_raw_bits : seenOut (step (withCell 0x32080000#32 0x200 1#32)) =
    some ([.float 1#32], 0x11#16, .none) := by decide

/-! ## Conditional jumps (95_test_vectors.md section 2.5) -/

theorem test_jz_lands_one_further : seen 0 (step (placed 0x41080000#32)) = some (0#32, 0x0000#16, 0x201#16, .none) := by
  decide
theorem test_jz_not_taken_resolves_nothing : seen 0 (step (withFlagBits 0x41801400#32 false false true false)) =
    some (0#32, 0x0400#16, 0x11#16, .none) := by decide
theorem test_jg_wraps : seen 0 (step { withFlagBits 0x427FFC00#32 false false true false with r0 := 0xF000#32 }) =
    some (0#32, 0x0400#16, 0x0000#16, .none) := by decide
theorem test_jl_displaced : seen 0 (step { withFlagBits 0x43C80400#32 true false false false with r1 := 0xFFFFFFEF#32 }) =
    some (0#32, 0x8000#16, 0x1F1#16, .none) := by decide
theorem test_jl_ignores_overflow : seen 0 (step (withFlagBits 0x43010000#32 false true false false)) =
    some (0#32, 0x0800#16, 0x11#16, .none) := by decide

/-! ## Register operations (95_test_vectors.md section 2.6) -/

theorem test_load_raw_bits : seenRegs (step (withCell 0x440007FF#32 0x3FF 0x44000080#32)) =
    some (0#32, 0x44000080#32, 0x0000#16, 0x11#16, .none) := by decide
theorem test_load_r7 : seenRegs (step (placed 0x44001C24#32)) =
    some (0#32, 0#32, 0x0000#16, 0x10#16, .invalidRegister) := by decide
theorem test_store_bytes : (nextOf (step (withRegs 0x45053401#32 0#32 42#32))).map
    (fun t => (t.mem.byteAt 0x14D, t.mem.byteAt 0x14E, t.ip)) = some (0x2A#8, 0x00#8, 0x11#16) := by decide
theorem test_addr_doubles : seenRegs (step (withRegs 0x14000000#32 0x7FFFFFFF#32 0#32)) =
    some (0xFFFFFFFE#32, 0#32, 0x8801#16, 0x11#16, .none) := by decide
theorem test_addr_second_index : seenRegs (step (withRegs 0x14000003#32 5#32 6#32)) =
    some (5#32, 6#32, 0x0000#16, 0x10#16, .invalidRegister) := by decide
theorem test_subr_borrows : seenRegs (step (withRegs 0x15000001#32 0#32 1#32)) =
    some (0xFFFFFFFF#32, 1#32, 0x8001#16, 0x11#16, .none) := by decide
theorem test_movr_copies : seenRegs (step (withRegs 0x16000001#32 0#32 7#32)) =
    some (7#32, 7#32, 0x0000#16, 0x11#16, .none) := by decide
theorem test_movr_r5 : seenRegs (step (withRegs 0x16001400#32 5#32 6#32)) =
    some (5#32, 6#32, 0x0000#16, 0x10#16, .invalidRegister) := by decide

/-! ## Fetch, STOP and the parameters (95_test_vectors.md sections 1.3, 2.7 and 2.9) -/

theorem test_stop_under_the_parameter :
    (nextOf (step { placed 0x00000005#32 with cfg := { Config.standard with zeroOpcodeFetch := .stop } })).map
      (fun t => (t.stop, t.error, t.ip)) = some (true, false, 0x10#16) := by decide
theorem test_data_word_by_default : seen 0x10 (step (placed 0x00000005#32)) =
    some (5#32, 0x0000#16, 0x10#16, .invalidOpcode) := by decide
theorem test_fetch_at_the_top : seenRegs (step { State.reset with ip := 0xFFFC#16, mem := [(0xFFFF, 0x14#8)] }) =
    some (0#32, 0#32, 0x0400#16, 0xFFFD#16, .none) ∧
    seenRegs (step { State.reset with ip := 0xFFFD#16, mem := [(0xFFFF, 0x14#8)] }) =
      some (0#32, 0#32, 0x0000#16, 0xFFFD#16, .outOfBounds) := by decide
theorem test_second_operand_out_of_bounds :
    (nextOf (step (withRegs 0x044003FF#32 0xFBFF#32 0#32))).map (fun t => (t.err, t.errInfo)) =
      some (.outOfBounds, .address 0xFFFE#16) := by decide
theorem test_jump_without_advance :
    (nextOf (step { placed 0x41080000#32 with cfg := { Config.standard with jumpAdvance := false } })).map
      (fun t => t.ip) = some 0x200#16 := by decide
theorem test_exact_carry :
    (nextOf (step { withPair 0x01040104#32 0xFFFFFFFF#32 1#32 with
      cfg := { Config.standard with carryAdd := .exact } })).map (fun t => flagWord t.flags) = some 0x0401#16 := by decide

/-! ## Address resolution (95_test_vectors.md section 2.4), R0 = 5 and R1 = -3 -/

theorem test_effective_addresses :
    let s := withRegs 0#32 5#32 0xFFFFFFFD#32
    effAddr s .absolute 0x123#16 1#3 = .ok 0x123#16 ∧ effAddr s .dispR0 0x123#16 1#3 = .ok 0x128#16 ∧
      effAddr s .indirect 0x123#16 1#3 = .ok 0xFFFD#16 ∧ effAddr s .indirectDisp 0x121#16 1#3 = .ok 0x11E#16 ∧
      effAddr s .indirectDisp 0x002#16 1#3 = .ok 0xFFFF#16 ∧ effAddr s .dispR0 0x125#16 5#3 = .ok 0x12A#16 := by
  refine ⟨rfl, rfl, rfl, rfl, rfl, rfl⟩

/-! ## Reset, the loader and the host's entry points -/

/-- 70_reset_and_hazards.md R270, R271: `State.reset` is Reset with entry 0 of any created processor. -/
theorem test_reset_of_created :
    (State.created 0x123#16 { s := true, c := true, v := true, z := true } Config.standard [] []).resetTo 0#16 =
      State.reset := by decide
/-- 40_fetch_decode_dispatch.md R110: no step before the first Reset. -/
theorem test_no_step_before_reset :
    nextOf (step (State.created 0#16 Flags.clear Config.standard [] [])) = none := by decide
theorem test_core_reset : Sys2Proof.core.reset = State.reset := rfl
/-- The word given to `withFetchWord` runs next: ADDR R0, R0 on zeros sets Z (95_test_vectors.md section 2.7). -/
theorem test_withFetchWord_runs : seenRegs (step (State.reset.withFetchWord 32 0x14000000)) =
    some (0#32, 0#32, 0x0400#16, 0x0001#16, .none) := by decide
theorem test_withFetchWord_runs_stop : (nextOf (step (State.reset.withFetchWord 32 0))).map (fun t => t.stop) =
    some true := by decide
/-- 95_test_vectors.md section 1.4, S3: the program file. -/
def floatProgram : List (List Char) :=
  ["a 0200".toList, "r 3.5".toList, "a 0000".toList, "k 32 00 0200 0000".toList, "e 0000".toList, "s".toList]
theorem test_boot_float_program :
    (match boot floatProgram State.reset with
      | .ready t => some (t.mem.wordAt 0x200, t.mem.wordAt 0, t.ip)
      | .failed _ _ => none) = some (0x40600000#32, 0x32080000#32, 0#16) := by decide
/-- 95_test_vectors.md section 2.8: narrowing at packing, and a write past the end. -/
theorem test_loader_narrows :
    applyDirective { mem := [], cur := 0x300, ent := none } (.k 0x44 0 0x0001 0x0FFF) =
      .ok (.more { mem := Memory.setWord [] 0x300 0x440007FF#32, cur := 0x301, ent := none }) := by decide
theorem test_loader_write_out_of_bounds :
    applyDirective { mem := [], cur := 0xFFFD, ent := none } (.i 1) = .error .writeOutOfBounds := by decide
theorem test_loader_unknown_directive : parseLine "x 1".toList = .error .unknownDirective := by decide
/-- 70_reset_and_hazards.md R275: values that binary32 has are written exactly (bits from 95_test_vectors.md
section 2.2). -/
theorem test_loader_exact_literals : parseFloat "-3.75".toList = some 0xC0700000#32 ∧
    parseFloat "1.5E0".toList = some 0x3FC00000#32 ∧ parseFloat "1.2.3".toList = none := by decide
/-- 0.1 lies between 0x3DCCCCCC and 0x3DCCCCCD, the second being nearest (95_test_vectors.md section 2.2). -/
theorem test_loader_inexact_literal :
    literalMag true (1 * 2 ^ 149) 10 = 0x3DCCCCCD ∧ literalMag false (1 * 2 ^ 149) 10 = 0x3DCCCCCC := by decide
theorem test_loader_comment : parseLine "I 5   # comment".toList = .ok (some (.i 5)) := by decide

/-! ## Witnesses: concrete values that meet the hypotheses of a statement, each clause at a boundary of its range -/

/-- R0 = 0xFFF0 and R1 = 0x20: in mode 01, `A1 = 0` gives 0xFFF0 and `A2 = 0x00C`, `0x00D` give 0xFFFC, 0xFFFD. -/
def nearTop : State := withRegs 0#32 0xFFF0#32 0x20#32

/-- Two states that read alike. -/
def sampleMemory : Memory := [(0x10, 0x01#8), (0xFFFF, 0x14#8)]

theorem witness_EncodeInvertsDecode : decodeWord 0x45FFFFFF#32 = .ok (.store .indirectDisp 0xFFF#12 0x3FF#10) := by decide

theorem witness_PackingKeepsTheFieldBits : (0 : Nat) < 256 ∧ (255 : Nat) < 256 := by decide

theorem witness_IgnoredFieldsChangeNothing :
    a1Index 0x001#12 = a1Index 0xFF9#12 ∧ a2Index 0x000#10 = a2Index 0x3F8#10 := by decide

theorem witness_WordAccessBounds : (0xFFFC#16).toNat + 3 < 65536 ∧ ¬(0xFFFD#16).toNat + 3 < 65536 := by decide

theorem witness_WordsAreLittleEndian :
    memRead [] 0xFFFC#16 = .ok 0#32 ∧ memWrite [] 0xFFFC#16 0#32 = .ok [] ∧ 0xFFFB < (0xFFFC#16).toNat ∧
      (0xFFFC#16).toNat + 3 < 0x10000 := by decide

theorem witness_OverlappingWindowsKeepTheLastWrite :
    (0xFFFC#16).toNat = (0xFFFB#16).toNat + 1 ∧ (0xFFFC#16).toNat + 3 < 65536 := by decide

theorem witness_CanonicalMemoriesReadingAlikeAreEqual :
    Memory.wf sampleMemory = true ∧ Memory.wf (Memory.setByte [(0x10, 0x01#8)] 0xFFFF 0x14#8) = true ∧
      ∀ a : Nat, Memory.byteAt sampleMemory a = Memory.byteAt (Memory.setByte [(0x10, 0x01#8)] 0xFFFF 0x14#8) a :=
  ⟨by decide, by decide, fun _ => rfl⟩

theorem witness_PreloadPortMovesBytes : 65536 ≤ 65536 ∧ 65535 < 65536 := by decide

theorem witness_EffectiveAddressByMode :
    ((0#3).toNat = 0 ∧ 0xFFF0#32 = nearTop.r0) ∧ ((1#3).toNat = 1 ∧ 0x20#32 = nearTop.r1) ∧ 2 ≤ (2#3).toNat ∧
      2 ≤ (7#3).toNat ∧
      ((0xFFF#16).toNat = (0xFFF#12).toNat ∧ (0x3FF#16).toNat = (0x3FF#10).toNat ∧ (7#3).toNat = (0xFFF#12).toNat % 8) ∧
      ((0#16).toNat = (0#12).toNat ∧ (0#16).toNat = (0#10).toNat ∧ (0#3).toNat = (0#12).toNat % 8) := by decide

/-- A word with a nonzero top byte, and one with top byte 0 under `ZERO_OPCODE_FETCH = Stop`. -/
theorem witness_StepRunsTheDecodedInstruction :
    (let s := placed 0x14000400#32;
      s.resetDone = true ∧ s.stop = false ∧ s.error = false ∧ s.ip.toNat + 3 < 65536 ∧
        decodeBytes [s.mem.byteAt s.ip.toNat, s.mem.byteAt (s.ip.toNat + 1), s.mem.byteAt (s.ip.toNat + 2),
          s.mem.byteAt (s.ip.toNat + 3)] = .ok (.addr .absolute 0x001#12 0x000#10, []) ∧
        s.mem.byteAt (s.ip.toNat + 3) ≠ 0#8) ∧
      (let s := { State.reset with ip := 0xFFFC#16, cfg := { Config.standard with zeroOpcodeFetch := .stop } };
        s.resetDone = true ∧ s.stop = false ∧ s.error = false ∧ s.ip.toNat + 3 < 65536 ∧
          decodeBytes [s.mem.byteAt s.ip.toNat, s.mem.byteAt (s.ip.toNat + 1), s.mem.byteAt (s.ip.toNat + 2),
            s.mem.byteAt (s.ip.toNat + 3)] = .ok (.stop .absolute 0#12 0#10, []) ∧
          s.cfg.zeroOpcodeFetch = .stop) := by decide

theorem witness_TerminalStatesHaveNoStep :
    State.reset.halt.stop = true ∧ (State.reset.raise .ioError).error = true := by decide

theorem witness_EveryDefinedStepAnswersANextState :
    State.reset.resetDone = true ∧ State.reset.stop = false ∧ State.reset.error = false := by decide

theorem witness_ZeroTopByteFetch :
    (let s := placed 0x00FFFFFF#32;
      s.resetDone = true ∧ s.stop = false ∧ s.error = false ∧ memRead s.mem s.ip = .ok 0x00FFFFFF#32 ∧ opField 0x00FFFFFF#32 = 0#8 ∧
        s.cfg.zeroOpcodeFetch = .invalidOpcode) ∧
      (let s := { placed 0x00FFFFFF#32 with cfg := { Config.standard with zeroOpcodeFetch := .stop } };
        s.resetDone = true ∧ s.stop = false ∧ s.error = false ∧ memRead s.mem s.ip = .ok 0x00FFFFFF#32 ∧ s.cfg.zeroOpcodeFetch = .stop) := by
  decide

/-- One word of each side; the ranges at both ends follow. -/
theorem witness_AbsentOpcodesRaiseInvalidOpcode :
    (let s := placed 0x13000000#32;
      s.resetDone = true ∧ s.stop = false ∧ s.error = false ∧ memRead s.mem s.ip = .ok 0x13000000#32 ∧ opField 0x13000000#32 ≠ 0#8) ∧
      (let s := placed 0x45000000#32;
        s.resetDone = true ∧ s.stop = false ∧ s.error = false ∧ memRead s.mem s.ip = .ok 0x45000000#32 ∧ opField 0x45000000#32 ≠ 0#8) ∧
      (∀ n ∈ [0x05, 0x10, 0x13, 0x17, 0x20, 0x25, 0x30, 0x33, 0x40, 0x46, 0xFF],
        (0x05 ≤ n ∧ n ≤ 0x10) ∨ n = 0x13 ∨ (0x17 ≤ n ∧ n ≤ 0x20) ∨ (0x25 ≤ n ∧ n ≤ 0x30) ∨ (0x33 ≤ n ∧ n ≤ 0x40) ∨
          0x46 ≤ n) ∧
      ∀ n ∈ [0x01, 0x04, 0x11, 0x12, 0x14, 0x16, 0x21, 0x24, 0x31, 0x32, 0x41, 0x45],
        ¬((0x05 ≤ n ∧ n ≤ 0x10) ∨ n = 0x13 ∨ (0x17 ≤ n ∧ n ≤ 0x20) ∨ (0x25 ≤ n ∧ n ≤ 0x30) ∨ (0x33 ≤ n ∧ n ≤ 0x40) ∨
          0x46 ≤ n) := by decide

theorem witness_FetchPastTheEndIsOutOfBounds :
    (let s := { State.reset with ip := 0xFFFD#16 };
      0xFFFD ≤ s.ip.toNat ∧ s.resetDone = true ∧ s.stop = false ∧ s.error = false) ∧
      ({ State.reset with ip := 0xFFFC#16 } : State).ip.toNat < 0xFFFD := by decide

theorem witness_ErrorKindsFollowTheTable :
    (let s := placed 0#32;
      s.error = false ∧ nextOf (exec (.load .absolute 0x002#12 0#10) s) = some (s.raise (.invalidRegister 2#3)) ∧
        (s.raise (.invalidRegister 2#3)).error = true) ∧
      fetchInstr { State.reset with ip := 0xFFFD#16 } = .error (.outOfBounds 0xFFFD#16) ∧
      fetchInstr State.reset = .error (.invalidOpcode 0#32) := by decide

theorem witness_ErrorsArePrecise :
    nextOf (step State.reset) = some (State.reset.raise (.invalidOpcode 0#32)) ∧
      (State.reset.raise (.invalidOpcode 0#32)).error = true := by decide

theorem witness_StopIsSetOnlyByStop :
    let s := { State.reset with cfg := { Config.standard with zeroOpcodeFetch := .stop } }
    nextOf (step s) = some s.halt ∧ s.halt.stop = true := by decide

/-- An instruction that writes no flags, and an arithmetic one that raises. -/
theorem witness_FlagsAreWrittenOnlyByArithmetic :
    (let s := withFlagBits 0#32 true true true true;
      s.error = false ∧ (nextOf (exec (.movr .absolute 0#12 1#10) s)).isSome = true ∧
        writesFlags (.movr .absolute 0#12 1#10) = false) ∧
      (let s := { withPair 0#32 10#32 0#32 with flags := { s := true, c := true, v := true, z := true } };
        s.error = false ∧ nextOf (exec (.idiv .absolute 0x100#12 0x104#10) s) = some (s.raise (.divByZero 0x104#16)) ∧
          (s.raise (.divByZero 0x104#16)).error = true) := by decide

theorem witness_RegistersAreWrittenOnlyByTheirInstructions :
    (nextOf (exec (.load .absolute 1#12 0#10) State.reset)).isSome = true ∧
      writtenRegister (.load .absolute 1#12 0#10) ≠ some 0#3 ∧
      (nextOf (exec (.load .absolute 0#12 0#10) State.reset)).isSome = true ∧
      writtenRegister (.load .absolute 0#12 0#10) ≠ some 1#3 := by decide

/-- A store at the last address STORE can name, and an instruction that stores nothing. -/
theorem witness_MemoryChangesOnlyInTheStoredWindow :
    (nextOf (exec (.store .absolute 0xFFF#12 1#10) nearTop)).isSome = true ∧
      storeAddress (.store .absolute 0xFFF#12 1#10) nearTop = some 0xFFF#16 ∧ 0xFFE < (0xFFF#16).toNat ∧
      (0xFFF#16).toNat + 3 < 0x1003 ∧ (nextOf (exec (.iout .absolute 0x100#12 0#10) nearTop)).isSome = true ∧
      storeAddress (.iout .absolute 0x100#12 0#10) nearTop = none := by decide

theorem witness_OutputOnlyGrows : (nextOf (exec (.rout .absolute 0x100#12 0#10) State.reset)).isSome = true := by decide

theorem witness_HostAnswersAreConsumedInOrder :
    (nextOf (exec (.iin .absolute 0x100#12 0#10) { State.reset with intIn := [.int 5#32, .fail] })).map
        (fun t => t.intIn) = some [.fail] ∧
      (nextOf (exec (.rin .absolute 0x100#12 0#10) { State.reset with floatIn := [.fail] })).map
        (fun t => t.floatIn) = some [] := by decide

/-- An arithmetic instruction at the last address, and a jump that the flags do not take. -/
theorem witness_CompletedInstructionsAdvanceIp :
    (let s := { withPair 0#32 3#32 4#32 with ip := 0xFFFF#16 };
      let i := Instr.iadd .absolute 0x100#12 0x104#10;
      s.error = false ∧ (nextOf (exec i s)).map (fun t => (t.error, t.ip)) = some (false, 0#16) ∧
        waitsForHost i s = false ∧ leavesStraightLine i s = false) ∧
      (let s := withFlagBits 0#32 false false true false;
        let i := Instr.jz .absolute 0x100#12 0#10;
        s.error = false ∧ (nextOf (exec i s)).map (fun t => t.error) = some false ∧ waitsForHost i s = false ∧
          leavesStraightLine i s = false) := by decide

theorem witness_StepKeepsTheInvariant :
    (withPair 0x01040104#32 3#32 4#32).Inv ∧ (nextOf (step (withPair 0x01040104#32 3#32 4#32))).isSome = true := by decide

/-- The class M2 statements (IADD, ISUB, IMUL, IDIV, RADD, RSUB, RMUL, RDIV): operands in every mode, the last window
that fits among them; then the two invalid indices at the ends of their range, and each window out of bounds. -/
theorem witness_two_operand_statements :
    OperandsAt nearTop .absolute 0xFFF#12 0x3FF#10 0xFFF#16 0x3FF#16 ∧
      OperandsAt nearTop .dispR0 0x00C#12 0x000#10 0xFFFC#16 0xFFF0#16 ∧
      OperandsAt nearTop .indirect 0x001#12 0x000#10 0x20#16 0x20#16 ∧
      OperandsAt nearTop .indirectDisp 0x001#12 0x3FF#10 0x21#16 0x41F#16 ∧
      (Mode.resolves .indirect ∧ 2 ≤ (a1Index 0x002#12).toNat) ∧
      (Mode.resolves .indirectDisp ∧ 2 ≤ (a1Index 0xFFF#12).toNat) ∧
      (ea1 nearTop .dispR0 0x00D#12 = .ok 0xFFFD#16 ∧ ea2 nearTop .dispR0 0x00D#12 0#10 = .ok 0xFFF0#16 ∧
        ¬WindowFits 0xFFFD#16) ∧
      (ea1 nearTop .dispR0 0x00C#12 = .ok 0xFFFC#16 ∧ ea2 nearTop .dispR0 0x00C#12 0x00D#10 = .ok 0xFFFD#16 ∧
        WindowFits 0xFFFC#16 ∧ ¬WindowFits 0xFFFD#16) := by
  unfold OperandsAt
  decide

/-- IDIV: a divisor that is not zero and one that is. -/
theorem witness_IdivStoresTheQuotient :
    (let s := withPair 0#32 7#32 0xFFFFFFFF#32;
      OperandsAt s .absolute 0x100#12 0x104#10 0x100#16 0x104#16 ∧ s.mem.wordAt (0x104#16).toNat ≠ 0#32) ∧
      (let s := withPair 0#32 7#32 0#32;
        OperandsAt s .absolute 0x100#12 0x104#10 0x100#16 0x104#16 ∧ s.mem.wordAt (0x104#16).toNat = 0#32) := by
  unfold OperandsAt
  decide

/-- RDIV: the least subnormal divisor and both zeros. -/
theorem witness_RdivStoresTheRoundedQuotient :
    (let s := withPair 0#32 0#32 1#32;
      OperandsAt s .absolute 0x100#12 0x104#10 0x100#16 0x104#16 ∧ magBits (s.mem.wordAt (0x104#16).toNat) ≠ 0) ∧
      (let s := withPair 0#32 0#32 0#32;
        OperandsAt s .absolute 0x100#12 0x104#10 0x100#16 0x104#16 ∧ magBits (s.mem.wordAt (0x104#16).toNat) = 0) ∧
      (let s := withPair 0#32 0#32 0x80000000#32;
        OperandsAt s .absolute 0x100#12 0x104#10 0x100#16 0x104#16 ∧ magBits (s.mem.wordAt (0x104#16).toNat) = 0) := by
  unfold OperandsAt
  decide

/-- IIN: an invalid index, an answer with a window that fits and one that does not, and a failure. -/
theorem witness_IinStoresTheHostsInteger :
    (Mode.resolves .indirect ∧ 2 ≤ (a1Index 0x002#12).toNat) ∧
      (let s := { nearTop with intIn := [.int 1#32] };
        s.intIn = .int 1#32 :: [] ∧ (ea1 s .dispR0 0x00C#12 = .ok 0xFFFC#16 ∧ WindowFits 0xFFFC#16) ∧
          ea1 s .dispR0 0x00D#12 = .ok 0xFFFD#16 ∧ ¬WindowFits 0xFFFD#16) ∧
      (let s := { nearTop with intIn := [.fail] };
        s.intIn = .fail :: [] ∧ ea1 s .dispR0 0x00D#12 = .ok 0xFFFD#16) := by decide

/-- RIN: an invalid index, an answer with a window that fits and one that does not, and a failure. -/
theorem witness_RinStoresTheHostsFloat :
    (Mode.resolves .indirect ∧ 2 ≤ (a1Index 0x002#12).toNat) ∧
      (let s := { nearTop with floatIn := [.float 1#32] };
        s.floatIn = .float 1#32 :: [] ∧ (ea1 s .dispR0 0x00C#12 = .ok 0xFFFC#16 ∧ WindowFits 0xFFFC#16) ∧
          ea1 s .dispR0 0x00D#12 = .ok 0xFFFD#16 ∧ ¬WindowFits 0xFFFD#16) ∧
      (let s := { nearTop with floatIn := [.fail] };
        s.floatIn = .fail :: [] ∧ ea1 s .dispR0 0x00D#12 = .ok 0xFFFD#16) := by decide

theorem witness_UnansweredInputWaits :
    (let s := placed 0x11800400#32;
      s.resetDone = true ∧ s.stop = false ∧ s.error = false ∧ fetchInstr s = .ok (.iin .indirect 0x001#12 0#10) ∧ s.intIn = [] ∧
        (Mode.resolves .indirect → (a1Index 0x001#12).toNat < 2)) ∧
      (let s := placed 0x31001C00#32;
        s.resetDone = true ∧ s.stop = false ∧ s.error = false ∧ fetchInstr s = .ok (.rin .absolute 0x007#12 0#10) ∧ s.floatIn = [] ∧
          (Mode.resolves .absolute → (a1Index 0x007#12).toNat < 2)) := by decide

/-- IOUT and ROUT: an invalid index, a window that fits and one that does not. -/
theorem witness_output_statements :
    (Mode.resolves .indirectDisp ∧ 2 ≤ (a1Index 0x007#12).toNat) ∧
      (ea1 nearTop .dispR0 0x00C#12 = .ok 0xFFFC#16 ∧ WindowFits 0xFFFC#16) ∧
      ea1 nearTop .dispR0 0x00D#12 = .ok 0xFFFD#16 ∧ ¬WindowFits 0xFFFD#16 := by decide

/-- JZ, JG and JL: states that take each and states that do not, with targets at both ends of memory; and an index that
does not resolve. -/
theorem witness_jump_statements :
    (let s := { withFlagBits 0#32 false false false false with r0 := 0xFFF0#32 };
      (s.flags.s = false ∧ s.flags.v = false ∧ s.flags.z = false ∧ s.flags.c = false) ∧
        ¬(s.flags.s = false ∧ (s.flags.v = true ∨ s.flags.z = true ∨ s.flags.c = true)) ∧ ¬s.flags.s = true ∧
        ea1 s .dispR0 0x00F#12 = .ok 0xFFFF#16 ∧ ea1 s .absolute 0x000#12 = .ok 0#16) ∧
      (let s := { withFlagBits 0#32 false false true false with r0 := 0xFFF0#32 };
        (s.flags.s = false ∧ (s.flags.v = true ∨ s.flags.z = true ∨ s.flags.c = true)) ∧
          ¬(s.flags.s = false ∧ s.flags.v = false ∧ s.flags.z = false ∧ s.flags.c = false) ∧
          ea1 s .dispR0 0x00F#12 = .ok 0xFFFF#16) ∧
      (let s := { withFlagBits 0#32 true false false false with r0 := 0xFFF0#32 };
        s.flags.s = true ∧ ea1 s .dispR0 0x00F#12 = .ok 0xFFFF#16) ∧
      Mode.resolves .indirect ∧ 2 ≤ (a1Index 0x002#12).toNat := by decide

/-- LOAD, STORE, ADDR, SUBR and MOVR: both registers that exist, and an index that names none in each place. -/
theorem witness_register_statements :
    (a1Index 0x000#12).toNat = 0 ∧ (a1Index 0xFF9#12).toNat = 1 ∧ 2 ≤ (a1Index 0x002#12).toNat ∧
      2 ≤ (a1Index 0x007#12).toNat ∧ ((a2Index 0x000#10).toNat = 0 ∧ nearTop.r0 = 0xFFF0#32) ∧
      ((a2Index 0x3F9#10).toNat = 1 ∧ nearTop.r1 = 0x20#32) ∧ 2 ≤ (a2Index 0x002#10).toNat ∧
      regRead nearTop (a1Index 0x000#12) = .ok 0xFFF0#32 ∧ regRead nearTop (a2Index 0x001#10) = .ok 0x20#32 ∧
      (a1Index 0x001#12).toNat < 2 := by decide

theorem witness_StopSetsStopOnly :
    fetchInstr { placed 0x00FFFFFF#32 with cfg := { Config.standard with zeroOpcodeFetch := .stop } } =
      .ok (.stop .indirectDisp 0xFFF#12 0x3FF#10) := by decide

/-- A Reset from a state that stopped, the state boot makes ready (its last line is the end of `e FFFF / s`). -/
theorem witness_ResetHasTheInvariant :
    nearTop.halt.mem.wf = true ∧ sampleMemory.wf = true ∧
      boot ["e FFFF".toList, "s".toList] { State.created 1#16 Flags.clear Config.standard [] [] with mem := sampleMemory } =
        .ready (({ State.created 1#16 Flags.clear Config.standard [] [] with mem := sampleMemory }).resetTo 0xFFFF#16) := by
  decide

theorem witness_ResetSetsTheInitialState :
    (let s := State.created 0xFFFF#16 Flags.clear Config.standard [] [];
      s.resetDone = false ∧ s.stop = false ∧ s.error = false) ∧
      (nextOf (step (placed 0x14000400#32))).isSome = true := by decide

/-- Each word directive at the last place that fits and one further; then three of them in a row, the last words that fit
(95_test_vectors.md section 2.8). -/
theorem witness_LoaderStrideIsOneByte :
    (directiveWord (.i (-2147483648)) = some 0x80000000#32 ∧ directiveWord (.r 0x40600000#32) = some 0x40600000#32 ∧
        directiveWord (.k 0x44 0 0x0001 0x0FFF) = some 0x440007FF#32) ∧
      (0xFFFC + 3 < 65536 ∧ 65536 ≤ 0xFFFD + 3) ∧
      (let st : LoaderState := { mem := [], cur := 0xFFFA, ent := none };
        let ds : List Directive := [.i 3, .r 0x40600000#32, .k 0x44 0 0x0001 0x0FFF];
        let ws : List Word := [3#32, 0x40600000#32, 0x440007FF#32];
        ds.map directiveWord = ws.map some ∧
          applyDirectives st ds =
            .ok { mem := ((Memory.setWord [] 0xFFFA 3#32).setWord 0xFFFB 0x40600000#32).setWord 0xFFFC 0x440007FF#32,
                  cur := 0xFFFD, ent := none } ∧
          (0 + 1 < ws.length ∧ ws[0]? = some 3#32) ∧ (1 + 1 < ws.length ∧ ws[1]? = some 0x40600000#32) ∧
          ws.getLast? = some 0x440007FF#32 ∧ (0xFFF9 < st.cur ∧ st.cur + ws.length + 2 < 0x10000)) := by decide

/-- The literal 3.5, its value at 3.5 * 2^149 units over 1, and patterns on either side. -/
theorem witness_LiteralsAreExactWhereBinary32HasTheValue :
    parseDecimal "3.5".toList = some { neg := false, digits := 35, exp := -1 } ∧ 0 < 1 ∧
      (7 * 2 ^ 148) * 10 ^ (-(-1 : Int)).toNat = 35 * 10 ^ (-1 : Int).toNat * 2 ^ 149 * 1 ∧
      lineTokens "r 3.5".toList = [['r'], "3.5".toList] ∧ lineTokens "R 3.5".toList = [['R'], "3.5".toList] ∧
      (0x40600000 < infMag ∧ magUnits 0x40600000 * 1 = 7 * 2 ^ 148) := by decide

theorem witness_LoadingKeepsMemoryCanonical : Memory.wf sampleMemory = true := by decide

theorem witness_BootResetsTheLoadedProcessor :
    loadLines ["e FFFF".toList, "s".toList] sampleMemory = (sampleMemory, .entry 0xFFFF#16) ∧
      loadLines ["s".toList] sampleMemory =
        (sampleMemory, .failed { line := 1, raw := "s".toList, reason := .entryUnset }) := by decide

end Sys2Proof.Machine.Tests
end

section
/-! SUPPORT. The packed flag word as the sum of its bits' weights, and its sign. -/

namespace Sys2Proof.Machine

/-- A flag placed at bit `n` of the flag word: nothing is shifted out. -/
theorem toNat_flag_shiftLeft (b : Bool) {n : Nat} (hn : n < 16) :
    ((BitVec.ofBool b).setWidth 16 <<< n).toNat = b.toNat <<< n := by
  have hb : b.toNat < 2 ^ 16 := b.toNat_lt.trans (by decide)
  have hlt : b.toNat * 2 ^ n < 2 ^ 16 :=
    calc b.toNat * 2 ^ n ≤ 1 * 2 ^ n := Nat.mul_le_mul_right _ b.toNat_le
      _ < 2 ^ 16 := by simpa using Nat.pow_lt_pow_right Nat.one_lt_two hn
  rw [BitVec.toNat_shiftLeft, BitVec.toNat_setWidth, BitVec.toNat_ofBool, Nat.mod_eq_of_lt hb, Nat.shiftLeft_eq,
    Nat.mod_eq_of_lt hlt]

/-- The flag word's or, on natural numbers. -/
theorem flagWord_toNat_or (f : Flags) :
    (flagWord f).toNat = f.s.toNat <<< 15 ||| (f.v.toNat <<< 11 ||| (f.z.toNat <<< 10 ||| f.c.toNat)) := by
  have hc : ((BitVec.ofBool f.c).setWidth 16).toNat = f.c.toNat := by
    simpa using toNat_flag_shiftLeft f.c (n := 0) (by decide)
  rw [flagWord, BitVec.toNat_or, BitVec.toNat_or, BitVec.toNat_or, toNat_flag_shiftLeft _ (by decide),
    toNat_flag_shiftLeft _ (by decide), toNat_flag_shiftLeft _ (by decide), hc, Nat.or_assoc, Nat.or_assoc]

/-- Each bit of the flag word stands above the sum of the bits below it, so the or adds their weights
(10_state.md R27). -/
theorem flagWord_toNat (f : Flags) :
    (flagWord f).toNat = f.s.toNat * 2 ^ 15 + f.v.toNat * 2 ^ 11 + f.z.toNat * 2 ^ 10 + f.c.toNat := by
  have hv := f.v.toNat_lt
  have hz := f.z.toNat_lt
  have hc := f.c.toNat_lt
  have hbelowZ : f.c.toNat < 2 ^ 10 := by omega
  have hbelowV : f.z.toNat <<< 10 + f.c.toNat < 2 ^ 11 := by omega
  have hbelowS : f.v.toNat <<< 11 + (f.z.toNat <<< 10 + f.c.toNat) < 2 ^ 15 := by omega
  rw [flagWord_toNat_or, ← Nat.shiftLeft_add_eq_or_of_lt hbelowZ, ← Nat.shiftLeft_add_eq_or_of_lt hbelowV,
    ← Nat.shiftLeft_add_eq_or_of_lt hbelowS]
  simp only [Nat.shiftLeft_eq, Nat.add_assoc]

/-- The sign test of `flagWord_tests`, as a proposition (10_state.md R27, `sFW < 0`). -/
theorem flagWord_toInt_neg_iff (f : Flags) : (flagWord f).toInt < 0 ↔ f.s = true := by
  rw [← (flagWord_tests f).2.2, decide_eq_true_iff]

/-- Settles O48: the word is the sum of its flags' weights, and its sign is S. -/
theorem flagWordPacksTheFlags : Obligations.FlagWordPacksTheFlags :=
  fun f => ⟨flagWord_toNat f, flagWord_toInt_neg_iff f⟩

end Sys2Proof.Machine
end

section
/-! The bounds of a word access (20_memory.md section 2). -/

namespace Sys2Proof.Machine

/-- Settles O7: `wordOK` compares on natural numbers, so `a + 3 < 65536` is its test, and both accesses answer by it. -/
theorem wordAccessBounds : Obligations.WordAccessBounds := by
  intro m a v
  constructor
  · intro hlt
    have hfits : a.toNat + 3 ≤ 0xFFFF := Nat.le_of_lt_succ hlt
    exact ⟨⟨_, memRead_of_fits m hfits⟩, ⟨_, memWrite_of_fits m v hfits⟩⟩
  · intro hge
    have hout : ¬a.toNat + 3 ≤ 0xFFFF := fun hfits => hge (Nat.lt_succ_of_le hfits)
    exact ⟨memRead_of_not_fits m hout, memWrite_of_not_fits m v hout⟩

end Sys2Proof.Machine
end

section
/-! SUPPORT. A packed word as a number (30_encoding.md R81). -/

namespace Sys2Proof

/-- Narrowing a number to `n` bits masks it with `n` ones. -/
theorem toNat_ofNat_eq_and_mask (n x : Nat) : (BitVec.ofNat n x).toNat = x &&& (2 ^ n - 1) := by
  rw [BitVec.toNat_ofNat, Nat.and_two_pow_sub_one_eq_mod]

/-- The concatenation of the four fields is the or of the shifted fields. -/
theorem packWord_toNat (op : Byte) (bb : BitVec 2) (a1 : Addr1) (a2 : Addr2) :
    (packWord op bb a1 a2).toNat = op.toNat <<< 24 ||| bb.toNat <<< 22 ||| a1.toNat <<< 10 ||| a2.toNat := by
  simp only [packWord, BitVec.toNat_append, Nat.shiftLeft_or_distrib, ← Nat.shiftLeft_add]

/-- Settles O3: the word is the or of its shifted fields, each field is its argument's low bits, and the readers give
back what was packed. -/
theorem packingKeepsTheFieldBits : Obligations.PackingKeepsTheFieldBits := by
  intro op bb a1 a2 hop w
  have hopKept : (BitVec.ofNat 8 op).toNat = op := by rw [BitVec.toNat_ofNat, Nat.mod_eq_of_lt hop]
  have hbbKept : (BitVec.ofNat 2 bb).toNat = bb &&& 3 := toNat_ofNat_eq_and_mask 2 bb
  have ha1Kept : (BitVec.ofNat 12 a1).toNat = a1 &&& 0xFFF := toNat_ofNat_eq_and_mask 12 a1
  have ha2Kept : (BitVec.ofNat 10 a2).toNat = a2 &&& 0x3FF := toNat_ofNat_eq_and_mask 10 a2
  refine ⟨?_, ?_, ?_, ?_, ?_⟩
  · rw [packWord_toNat, hopKept, hbbKept, ha1Kept, ha2Kept]
  · rw [opField_packWord, hopKept]
  · rw [bbField_packWord, hbbKept]
  · rw [a1Field_packWord, ha1Kept]
  · rw [a2Field_packWord, ha2Kept]

end Sys2Proof
end

section
/-! SUPPORT. The effective address of each mode as an integer modulo 2^16 (30_encoding.md R90 to R93). -/

namespace Sys2Proof.Machine

/-- The low 16 bits of a word are its signed reading modulo 2^16. -/
theorem toNat_setWidth_word (x : Word) : ((x.setWidth 16).toNat : Int) = x.toInt % 65536 := by
  rw [BitVec.toNat_setWidth, BitVec.toInt_eq_toNat_bmod, Int.bmod_def]
  omega

/-- Wrapping a sum to 32 bits first does not change its low 16 bits, because 2^16 divides 2^32. -/
theorem displaced_toNat (addr : Addr) (x : Word) :
    ((displaced addr x).toNat : Int) = ((addr.toNat : Int) + x.toInt) % 65536 := by
  have hdvd : (65536 : Int) ∣ ((2 ^ 32 : Nat) : Int) := by decide
  rw [displaced, toNat_setWidth_word, BitVec.toInt_ofInt, ← Int.emod_emod_of_dvd _ hdvd, Int.bmod_emod,
    Int.emod_emod_of_dvd _ hdvd]

theorem regRead_of_zero {s : State} {r : RegIndex} (h : r.toNat = 0) : regRead s r = .ok s.r0 :=
  if_pos (BitVec.eq_of_toNat_eq h)

theorem regRead_of_one {s : State} {r : RegIndex} (h : r.toNat = 1) : regRead s r = .ok s.r1 := by
  have hr : r = 1#3 := BitVec.eq_of_toNat_eq h
  subst hr
  rfl

theorem effAddr_indirect {s : State} {r : RegIndex} {x : Word} (h : regRead s r = .ok x) (addr : Addr) :
    effAddr s .indirect addr r = .ok (x.setWidth 16) := by
  rw [effAddr, h]

theorem effAddr_indirectDisp {s : State} {r : RegIndex} {x : Word} (h : regRead s r = .ok x) (addr : Addr) :
    effAddr s .indirectDisp addr r = .ok (displaced addr x) := by
  rw [effAddr, h]

/-- Resolution turns on the mode and the index alone, whatever the address. -/
theorem effAddr_ok_iff (s : State) (bb : Mode) (addr : Addr) (r : RegIndex) :
    (∃ e, effAddr s bb addr r = .ok e) ↔ (bb.resolves → r.toNat < 2) := by
  rcases effAddr_cases s bb addr r with ⟨a, hok, hvalid⟩ | ⟨hres, hinvalid, herr⟩
  · exact ⟨fun _ => hvalid, fun _ => ⟨a, hok⟩⟩
  · refine iff_of_false ?_ fun h => Nat.not_lt.mpr hinvalid (h hres)
    rintro ⟨_, hok⟩
    rw [herr] at hok
    cases hok

theorem effAddr_of_invalid {s : State} {bb : Mode} {r : RegIndex} (hb : bb.resolves) (hr : 2 ≤ r.toNat) (addr : Addr) :
    effAddr s bb addr r = .error (.invalidRegister r) := by
  rcases effAddr_cases s bb addr r with ⟨_, _, hvalid⟩ | ⟨_, _, herr⟩
  · exact absurd (hvalid hb) (Nat.not_lt.mpr hr)
  · exact herr

/-- `A1[2:0]` is `A1` modulo 8. -/
theorem a1Index_toNat (a1 : Addr1) : (a1Index a1).toNat = a1.toNat % 8 := by
  rw [a1Index_eq_setWidth, BitVec.toNat_setWidth]

/-- Settles O13: mode by mode, the register read by the cases of its index; then both operands' addresses are the same
function at the same index, so they resolve alike. -/
theorem effectiveAddressByMode : Obligations.EffectiveAddressByMode := by
  intro s addr r
  refine ⟨rfl, ⟨_, rfl, displaced_toNat addr s.r0⟩, ?valid, ?invalid, ?operands⟩
  case valid =>
    intro x hx
    have hread : regRead s r = .ok x := by
      rcases hx with ⟨hr, rfl⟩ | ⟨hr, rfl⟩
      · exact regRead_of_zero hr
      · exact regRead_of_one hr
    exact ⟨⟨_, effAddr_indirect hread addr, toNat_setWidth_word x⟩,
      ⟨_, effAddr_indirectDisp hread addr, displaced_toNat addr x⟩⟩
  case invalid =>
    intro hr
    exact ⟨effAddr_of_invalid (.inl rfl) hr addr, effAddr_of_invalid (.inr rfl) hr addr⟩
  case operands =>
    intro bb a1 a2 addr2 haddr haddr2 hr
    obtain rfl : addr = zextA1 a1 := BitVec.eq_of_toNat_eq (haddr.trans (zextA1_toNat a1).symm)
    obtain rfl : addr2 = zextA2 a2 := BitVec.eq_of_toNat_eq (haddr2.trans (zextA2_toNat a2).symm)
    obtain rfl : r = a1Index a1 := BitVec.eq_of_toNat_eq (hr.trans (a1Index_toNat a1).symm)
    refine ⟨rfl, rfl, (effAddr_ok_iff s bb _ _).trans (effAddr_ok_iff s bb _ _).symm, ?_⟩
    rintro rfl
    rfl

end Sys2Proof.Machine
end

section
/-! SUPPORT. The opcode bytes that the dispatch table lacks, and the step of a fetched word (30_encoding.md R87,
40_fetch_decode_dispatch.md R113). -/

namespace Sys2Proof

/-- The opcode bytes that 30_encoding.md R87 lists as illegal. -/
def InAbsentRange (n : Nat) : Prop :=
  (0x05 ≤ n ∧ n ≤ 0x10) ∨ n = 0x13 ∨ (0x17 ≤ n ∧ n ≤ 0x20) ∨ (0x25 ≤ n ∧ n ≤ 0x30) ∨ (0x33 ≤ n ∧ n ≤ 0x40) ∨ 0x46 ≤ n

/-- The opcodes of the table as numbers. -/
theorem opcodeTable_opcodes : opcodeTable.map (fun row => row.opcode.toNat) =
    [0x00, 0x01, 0x02, 0x03, 0x04, 0x11, 0x12, 0x14, 0x15, 0x16, 0x21, 0x22, 0x23, 0x24, 0x31, 0x32, 0x41, 0x42, 0x43,
      0x44, 0x45] := rfl

/-- The listed ranges are the complement of the table's opcodes. -/
theorem inAbsentRange_iff (op : Byte) : InAbsentRange op.toNat ↔ ∀ row ∈ opcodeTable, row.opcode ≠ op := by
  have hnumbers : (∀ row ∈ opcodeTable, row.opcode ≠ op) ↔
      ∀ n ∈ opcodeTable.map (fun row => row.opcode.toNat), n ≠ op.toNat := by
    simp only [List.forall_mem_map, ne_eq, BitVec.toNat_inj]
  rw [hnumbers, opcodeTable_opcodes]
  simp only [InAbsentRange, List.forall_mem_cons, List.not_mem_nil, false_imp_iff, implies_true, and_true]
  omega

/-- The encoder gives each row's instruction the row's own opcode. -/
theorem encode_make {row : OpcodeRow} (h : row ∈ opcodeTable) (bb : Mode) (a1 : Addr1) (a2 : Addr2) :
    encode (row.make bb a1 a2) = packWord row.opcode bb.bits a1 a2 := by
  revert row
  simp [opcodeTable, encode]

theorem encode_of_decodeWord {w : Word} {i : Instr} (h : decodeWord w = .ok i) : encode i = w := by
  rcases decodeWord_cases w with ⟨row, hrow, hop, hok⟩ | ⟨_, herr⟩
  · obtain rfl : row.make _ _ _ = i := Except.ok.inj (hok.symm.trans h)
    rw [encode_make hrow, hop, Mode.bits_ofBits, packWord_fields]
  · rw [herr] at h
    cases h

namespace Machine

theorem step_of_fetchInstr_ok {s : State} {i : Instr} (hr : s.resetDone = true) (hs : s.stop = false)
    (he : s.error = false) (hf : fetchInstr s = .ok i) : step s = exec i s := by
  simp [step, hr, hs, he, hf]

theorem step_of_fetchInstr_error {s : State} {e : Err} (hr : s.resetDone = true) (hs : s.stop = false)
    (he : s.error = false) (hf : fetchInstr s = .error e) : step s = .next (s.raise e) := by
  simp [step, hr, hs, he, hf]

/-- A fetched word with a nonzero top byte is the instruction that it decodes to. -/
theorem fetchInstr_of_decodeWord_ok {s : State} {w : Word} {i : Instr} (hm : memRead s.mem s.ip = .ok w)
    (hop : opField w ≠ 0#8) (hd : decodeWord w = .ok i) : fetchInstr s = .ok i := by
  simp [fetchInstr, fetchWord_eq, hm, discriminate, hop, hd]

/-- A fetched word that does not decode is illegal, whatever its top byte. -/
theorem fetchInstr_of_decodeWord_error {s : State} {w : Word} {e : DecodeError} (hm : memRead s.mem s.ip = .ok w)
    (hd : decodeWord w = .error e) : fetchInstr s = .error (.invalidOpcode w) := by
  simp [fetchInstr, fetchWord_eq, hm, discriminate, hd]

/-- Settles O18: the word decodes exactly when its opcode byte lies outside the ranges. -/
theorem absentOpcodesRaiseInvalidOpcode : Obligations.AbsentOpcodesRaiseInvalidOpcode := by
  intro s w hr hs he hm hop n
  rcases decodeWord_cases w with ⟨row, hrow, hrowOp, hd⟩ | ⟨habsent, hd⟩
  · have hin : ¬InAbsentRange n := fun h => (inAbsentRange_iff (opField w)).mp h row hrow hrowOp
    refine (if_neg hin).mpr ⟨_, encode_of_decodeWord hd, ?_⟩
    exact step_of_fetchInstr_ok hr hs he (fetchInstr_of_decodeWord_ok hm hop hd)
  · have hin : InAbsentRange n := (inAbsentRange_iff (opField w)).mpr habsent
    refine (if_pos hin).mpr ?_
    exact step_of_fetchInstr_error hr hs he (fetchInstr_of_decodeWord_error hm hd)

end Machine
end Sys2Proof
end

section
/-! SUPPORT. The register classes read of their address fields the index alone (30_encoding.md R84, R85). -/

namespace Sys2Proof.Machine

variable {a1 a1' : Addr1} {a2 a2' : Addr2}

theorem registerPair_congr (s : State) (hd : a1Index a1 = a1Index a1') (hs : a2Index a2 = a2Index a2') :
    registerPair s a1 a2 = registerPair s a1' a2' := by
  rw [registerPair, registerPair, hd, hs]

theorem execLoad_congr (bb bb' : Mode) (s : State) (hd : a1Index a1 = a1Index a1') :
    execLoad bb a1 a2 s = execLoad bb' a1' a2 s := by
  rw [execLoad, execLoad, hd]

theorem execStore_congr (bb bb' : Mode) (s : State) (hs : a2Index a2 = a2Index a2') :
    execStore bb a1 a2 s = execStore bb' a1 a2' s := by
  rw [execStore, execStore, hs]

theorem execAddr_congr (bb bb' : Mode) (s : State) (hd : a1Index a1 = a1Index a1') (hs : a2Index a2 = a2Index a2') :
    execAddr bb a1 a2 s = execAddr bb' a1' a2' s := by
  rw [execAddr, execAddr, registerPair_congr s hd hs, hd]

theorem execSubr_congr (bb bb' : Mode) (s : State) (hd : a1Index a1 = a1Index a1') (hs : a2Index a2 = a2Index a2') :
    execSubr bb a1 a2 s = execSubr bb' a1' a2' s := by
  rw [execSubr, execSubr, registerPair_congr s hd hs, hd]

theorem execMovr_congr (bb bb' : Mode) (s : State) (hd : a1Index a1 = a1Index a1') (hs : a2Index a2 = a2Index a2') :
    execMovr bb a1 a2 s = execMovr bb' a1' a2' s := by
  rw [execMovr, execMovr, hd, hs]

end Sys2Proof.Machine

namespace Sys2Proof.Machine

/-- Settles O6: the meanings of classes N, M1 and J do not mention the fields they ignore; those of RM, MR and RR reach
`A1` or `A2` through its index. -/
theorem ignoredFieldsChangeNothing : Obligations.IgnoredFieldsChangeNothing := by
  intro bb bb' a1 a1' a2 a2' s
  refine ⟨rfl, rfl, rfl, rfl, rfl, rfl, rfl, rfl, ?load, ?store, ?registerPairs⟩
  case load => exact execLoad_congr bb bb' s
  case store => exact execStore_congr bb bb' s
  case registerPairs =>
    intro hd hs
    exact ⟨execAddr_congr bb bb' s hd hs, execSubr_congr bb bb' s hd hs, execMovr_congr bb bb' s hd hs⟩

end Sys2Proof.Machine
end

section
/-! SUPPORT. The fetch of a word, and what becomes of one with top byte 0 (40_fetch_decode_dispatch.md R111, R112,
R120). -/

namespace Sys2Proof

/-- Every word with top byte 0 decodes to STOP: whether it is data is the fetch's decision, not the decoder's. -/
theorem decodeWord_of_opField_zero {w : Word} (h : opField w = 0#8) :
    decodeWord w = .ok (.stop (Mode.ofBits (bbField w)) (a1Field w) (a2Field w)) := by
  have hrow : opcodeTable.find? (fun row => row.opcode == 0#8) = some ⟨0#8, .stop⟩ := rfl
  rw [decodeWord, h, hrow]

theorem opField_encode_stop (bb : Mode) (a1 : Addr1) (a2 : Addr2) : opField (encode (.stop bb a1 a2)) = 0x00#8 := by
  rw [encode, opField_packWord]

namespace Machine

theorem exec_stop (bb : Mode) (a1 : Addr1) (a2 : Addr2) (s : State) : exec (.stop bb a1 a2) s = .next s.halt := rfl

theorem fetchInstr_of_fetchWord_error {s : State} {e : Err} (h : fetchWord s = .error e) :
    fetchInstr s = .error e := by
  rw [fetchInstr, h]

theorem fetchInstr_of_memRead {s : State} {w : Word} (h : memRead s.mem s.ip = .ok w) :
    fetchInstr s = discriminate s.cfg w := by
  rw [fetchInstr, fetchWord_eq, h]

/-- Under the default a word with top byte 0 is data. -/
theorem discriminate_of_dataWord {cfg : Config} {w : Word} (hop : opField w = 0#8)
    (hz : cfg.zeroOpcodeFetch = .invalidOpcode) : discriminate cfg w = .error (.invalidOpcode w) :=
  if_pos ⟨hop, hz⟩

/-- Under `ZERO_OPCODE_FETCH = Stop` no word is data: the decoder alone decides. -/
theorem discriminate_of_zeroOpcodeFetch_stop {cfg : Config} {w : Word} {i : Instr} (hz : cfg.zeroOpcodeFetch = .stop)
    (hd : decodeWord w = .ok i) : discriminate cfg w = .ok i := by
  simp [discriminate, hz, hd]

/-- Settles O17: under the default the fetch raises; under the other setting the word decodes to STOP, which runs. -/
theorem zeroTopByteFetch : Obligations.ZeroTopByteFetch := by
  intro s w hr hs he hm hop
  have hfetch : fetchInstr s = discriminate s.cfg w := fetchInstr_of_memRead hm
  constructor
  · intro hdefault
    exact step_of_fetchInstr_error hr hs he (hfetch.trans (discriminate_of_dataWord hop hdefault))
  · intro hstop
    have hd := decodeWord_of_opField_zero hop
    have hi := hfetch.trans (discriminate_of_zeroOpcodeFetch_stop hstop hd)
    exact (step_of_fetchInstr_ok hr hs he hi).trans (exec_stop _ _ _ s)

/-- Settles O19: the fetch is the word read at IP, whose window fits exactly below 0xFFFD; none of the errors it can
raise is InvalidIP. -/
theorem fetchPastTheEndIsOutOfBounds : Obligations.FetchPastTheEndIsOutOfBounds := by
  intro s
  refine ⟨?pastEnd, ?below, ?neverInvalidIP⟩
  case pastEnd =>
    intro hge
    have hout : ¬s.ip.toNat + 3 ≤ 0xFFFF := by omega
    have hfetch : fetchWord s = .error (.outOfBounds s.ip) := (fetchWord_eq s).trans (memRead_of_not_fits s.mem hout)
    exact ⟨hfetch, fun hr hs he => step_of_fetchInstr_error hr hs he (fetchInstr_of_fetchWord_error hfetch)⟩
  case below =>
    intro hlt
    have hread := memRead_of_fits s.mem (a := s.ip) (by omega)
    exact ⟨_, (fetchWord_eq s).trans hread, hread⟩
  case neverInvalidIP =>
    intro a hip
    rcases fetchInstr_cases s with ⟨_, _, _, _, hok, _⟩ | ⟨_, _, herr⟩ | ⟨_, herr⟩
    · cases hok.symm.trans hip
    · cases herr.symm.trans hip
    · cases herr.symm.trans hip

/-- Settles O54: of what the fetch can answer, only a decoded word is STOP; that word is STOP's own, so its top byte is
0 and the parameter lets it through. -/
theorem stopSetsStopOnly : Obligations.StopSetsStopOnly := by
  intro bb a1 a2 s
  refine ⟨exec_stop bb a1 a2 s, opField_encode_stop bb a1 a2, ?_⟩
  intro hstop
  rcases fetchInstr_cases s with ⟨w, i, hm, hd, hok, hzero⟩ | ⟨_, _, herr⟩ | ⟨_, herr⟩
  · obtain rfl : i = .stop bb a1 a2 := Except.ok.inj (hok.symm.trans hstop)
    obtain rfl : encode (.stop bb a1 a2) = w := encode_of_decodeWord hd
    exact ⟨hzero (opField_encode_stop bb a1 a2), hm⟩
  · cases herr.symm.trans hstop
  · cases herr.symm.trans hstop

end Machine
end Sys2Proof
end

section
/-! SUPPORT. The completion of a class M2 instruction, and the integer flag formulas on the words' readings
(41_integer_arith.md R140 to R143). -/

namespace Sys2Proof.Machine

/-! ## The four meanings -/

theorem exec_iadd (bb : Mode) (a1 : Addr1) (a2 : Addr2) (s : State) :
    exec (.iadd bb a1 a2) s = orRaise s (operandPair s bb a1 a2) fun o =>
      storeResult s o.e1 (trunc32 (s32 o.w1 + s32 o.w2))
        (addFlags s.cfg.carryAdd o.w1 o.w2 (trunc32 (s32 o.w1 + s32 o.w2))) := rfl

theorem exec_isub (bb : Mode) (a1 : Addr1) (a2 : Addr2) (s : State) :
    exec (.isub bb a1 a2) s = orRaise s (operandPair s bb a1 a2) fun o =>
      storeResult s o.e1 (trunc32 (s32 o.w1 - s32 o.w2)) (subFlags o.w1 o.w2 (trunc32 (s32 o.w1 - s32 o.w2))) := rfl

theorem exec_imul (bb : Mode) (a1 : Addr1) (a2 : Addr2) (s : State) :
    exec (.imul bb a1 a2) s = orRaise s (operandPair s bb a1 a2) fun o =>
      storeResult s o.e1 (trunc32 (s32 o.w1 * s32 o.w2)) (mulFlags o.w1 o.w2 (trunc32 (s32 o.w1 * s32 o.w2))) := rfl

theorem exec_idiv (bb : Mode) (a1 : Addr1) (a2 : Addr2) (s : State) :
    exec (.idiv bb a1 a2) s = orRaise s (operandPair s bb a1 a2) fun o =>
      if s32 o.w2 = 0 then .next (s.raise (.divByZero o.e2))
      else storeResult s o.e1 (trunc32 ((s32 o.w1).tdiv (s32 o.w2)))
        (divFlags (trunc32 ((s32 o.w1).tdiv (s32 o.w2)))) := rfl

/-- A class M2 instruction whose meaning ends, on its two operand words, in a store at `EA1` completes. -/
theorem completedStore_of_storeResult {i : Instr} {s : State} {bb : Mode} {a1 : Addr1} {a2 : Addr2} {e1 e2 : Addr}
    {k : OperandPair → Result} {res : Word} {f : Flags} (h : OperandsAt s bb a1 a2 e1 e2)
    (hi : exec i s = orRaise s (operandPair s bb a1 a2) k)
    (hk : k { e1 := e1, e2 := e2, w1 := s.mem.wordAt e1.toNat, w2 := s.mem.wordAt e2.toNat } = storeResult s e1 res f) :
    ∃ t, exec i s = .next t ∧ CompletedStore s t e1 res f := by
  have hexec : exec i s = storeResult s e1 res f := hi.trans ((orRaise_operandPair h k).trans hk)
  obtain ⟨_, _, hfits, _⟩ := h
  rw [hexec]
  exact storeResult_completes s res f hfits

/-! ## Flags -/

theorem toInt_eq_zero_iff (w : Word) : w.toInt = 0 ↔ w = 0#32 :=
  (decide_eq_decide.mp (decide_eq_zero w)).symm

/-- The add flags: Z and C on the signed reading and the sign bit of the wrapped sum (R140). -/
theorem addFlags_eq (carry : CarryAdd) {a b res : Word} (h : res = BitVec.ofInt 32 (a.toInt + b.toInt)) :
    addFlags carry a b res =
      { s := decide (res.toInt < 0)
        z := decide (res.toInt = 0)
        c := if carry = .wrap32 then res.msb else decide (0x7FFFFFFF < a.toNat + b.toNat)
        v := decide ((a.toInt > 0 ∧ b.toInt > 0 ∧ res.toInt < 0) ∨ (a.toInt < 0 ∧ b.toInt < 0 ∧ res.toInt > 0)) } := by
  rw [← addFlags_c carry a b res h, ← decide_eq_zero]
  rfl

/-- The subtract flags: Z on the signed reading (R141). -/
theorem subFlags_eq (a b res : Word) :
    subFlags a b res =
      { s := decide (res.toInt < 0)
        z := decide (res.toInt = 0)
        c := decide (a.toNat < b.toNat)
        v := decide ((a.toInt > 0 ∧ b.toInt < 0 ∧ res.toInt < 0) ∨ (a.toInt < 0 ∧ b.toInt > 0 ∧ res.toInt > 0)) } := by
  rw [← decide_eq_zero]
  rfl

/-- The multiply flags: Z on the signed reading, the guard of the divide-back check on the word (R142). -/
theorem mulFlags_eq (a b res : Word) :
    mulFlags a b res =
      { s := decide (res.toInt < 0)
        z := decide (res.toInt = 0)
        c := false
        v := decide (b ≠ 0#32 ∧ (BitVec.ofInt 32 (res.toInt.tdiv b.toInt)).toInt ≠ a.toInt) } := by
  simp only [mulFlags, decide_eq_zero, ne_eq, toInt_eq_zero_iff b]

/-- The divide flags: Z on the signed reading (R143). -/
theorem divFlags_eq (res : Word) :
    divFlags res = { s := decide (res.toInt < 0), z := decide (res.toInt = 0), c := false, v := false } := by
  rw [← decide_eq_zero]
  rfl

/-! ## The obligations -/

/-- Settles O32: the operands' sum is stored with the add flags; the errors are those of the operand sequence. -/
theorem iaddStoresTheSum : Obligations.IaddStoresTheSum := by
  refine ⟨?completes, ?errors, ?opcode⟩
  case completes =>
    intro bb a1 a2 s e1 e2 h
    exact completedStore_of_storeResult h (exec_iadd bb a1 a2 s) (congrArg _ (addFlags_eq s.cfg.carryAdd rfl))
  case errors => exact twoOperandErrors_of_operandPair fun bb a1 a2 s => ⟨_, exec_iadd bb a1 a2 s⟩
  case opcode => exact fun bb a1 a2 => opField_packWord 0x01#8 bb.bits a1 a2

/-- Settles O33: the operands' difference is stored with the subtract flags; the errors are those of the operand
sequence. -/
theorem isubStoresTheDifference : Obligations.IsubStoresTheDifference := by
  refine ⟨?completes, ?errors, ?opcode⟩
  case completes =>
    intro bb a1 a2 s e1 e2 h
    exact completedStore_of_storeResult h (exec_isub bb a1 a2 s) (congrArg _ (subFlags_eq _ _ _))
  case errors => exact twoOperandErrors_of_operandPair fun bb a1 a2 s => ⟨_, exec_isub bb a1 a2 s⟩
  case opcode => exact fun bb a1 a2 => opField_packWord 0x02#8 bb.bits a1 a2

/-- Settles O34: a zero second operand is no error, so the product is stored in every case, with the divide-back
check in V. -/
theorem imulStoresTheLowProduct : Obligations.ImulStoresTheLowProduct := by
  refine ⟨?completes, ?errors, ?opcode⟩
  case completes =>
    intro bb a1 a2 s e1 e2 h
    exact completedStore_of_storeResult h (exec_imul bb a1 a2 s) (congrArg _ (mulFlags_eq _ _ _))
  case errors => exact twoOperandErrors_of_operandPair fun bb a1 a2 s => ⟨_, exec_imul bb a1 a2 s⟩
  case opcode => exact fun bb a1 a2 => opField_packWord 0x03#8 bb.bits a1 a2

/-- Settles O35: once the operand sequence has completed, the divisor decides between the quotient's store and
DivByZero. -/
theorem idivStoresTheQuotient : Obligations.IdivStoresTheQuotient := by
  refine ⟨?completes, ?errors, ?opcode⟩
  case completes =>
    intro bb a1 a2 s e1 e2 h a b res
    constructor
    · intro hb
      have hdivisor : s32 b ≠ 0 := mt (toInt_eq_zero_iff b).mp hb
      exact completedStore_of_storeResult h (exec_idiv bb a1 a2 s)
        ((if_neg hdivisor).trans (congrArg _ (divFlags_eq res)))
    · intro hb
      have hdivisor : s32 b = 0 := (toInt_eq_zero_iff b).mpr hb
      rw [exec_idiv, orRaise_operandPair h]
      exact if_pos hdivisor
  case errors => exact twoOperandErrors_of_operandPair fun bb a1 a2 s => ⟨_, exec_idiv bb a1 a2 s⟩
  case opcode => exact fun bb a1 a2 => opField_packWord 0x04#8 bb.bits a1 a2

end Sys2Proof.Machine
end

section
/-! SUPPORT. The output instructions (43_io.md R182, R183, R185): IOUT and ROUT are one meaning under two views of the
word at `EA1`. -/

namespace Sys2Proof.Machine

/-- The word at `EA1` put on OUT under `view`, and the advance. -/
def emitWord (view : Word → OutEvent) (bb : Mode) (a1 : Addr1) (s : State) : Result :=
  orRaise s (ea1 s bb a1) fun e1 =>
    orRaise s (memRead s.mem e1) fun w => .next (s.emit (view w)).advance

theorem exec_iout (bb : Mode) (a1 : Addr1) (a2 : Addr2) (s : State) :
    exec (.iout bb a1 a2) s = emitWord (fun w => .int w.toInt) bb a1 s := rfl

theorem exec_rout (bb : Mode) (a1 : Addr1) (a2 : Addr2) (s : State) :
    exec (.rout bb a1 a2) s = emitWord .float bb a1 s := rfl

/-! ## What `emitWord` answers, its errors in the order of the checks -/

section
variable {s : State} {bb : Mode} {a1 : Addr1} {e1 : Addr} (view : Word → OutEvent)

theorem emitWord_of_invalid (hb : bb.resolves) (hi : 2 ≤ (a1Index a1).toNat) :
    emitWord view bb a1 s = .next (s.raise (.invalidRegister (a1Index a1))) := by
  rw [emitWord, ea1_of_invalid hb hi, orRaise_error]

theorem emitWord_of_fits (he : ea1 s bb a1 = .ok e1) (hf : WindowFits e1) :
    emitWord view bb a1 s = .next (s.emit (view (s.mem.wordAt e1.toNat))).advance := by
  rw [emitWord, he, orRaise_ok, memRead_of_fits s.mem hf, orRaise_ok]

theorem emitWord_of_not_fits (he : ea1 s bb a1 = .ok e1) (hf : ¬WindowFits e1) :
    emitWord view bb a1 s = .next (s.raise (.outOfBounds e1)) := by
  rw [emitWord, he, orRaise_ok, memRead_of_not_fits s.mem hf, orRaise_error]

end

/-! ## The obligations -/

/-- Settles O43: the view is the word's signed reading, and each error is raised before the event is appended. -/
theorem ioutEmitsTheInteger : Obligations.IoutEmitsTheInteger := by
  intro bb a1 a2 s
  rw [exec_iout]
  exact ⟨emitWord_of_invalid _, fun _ he => ⟨emitWord_of_fits _ he, emitWord_of_not_fits _ he⟩,
    opField_packWord 0x12#8 bb.bits a1 a2⟩

/-- Settles O44: the view is the word itself, and each error is raised before the event is appended. -/
theorem routEmitsTheFloat : Obligations.RoutEmitsTheFloat := by
  intro bb a1 a2 s
  rw [exec_rout]
  exact ⟨emitWord_of_invalid _, fun _ he => ⟨emitWord_of_fits _ he, emitWord_of_not_fits _ he⟩,
    opField_packWord 0x32#8 bb.bits a1 a2⟩

end Sys2Proof.Machine
end

section
/-! The conditional jumps (44_control_flow.md R200 to R203): one shared jump under three tests of the flag word, each
test read off the flags. -/

namespace Sys2Proof.Machine

/-! ## What each jump runs -/

theorem exec_jz (bb : Mode) (a1 : Addr1) (a2 : Addr2) (s : State) :
    exec (.jz bb a1 a2) s = jumpIf (decide (flagWord s.flags = 0#16)) bb a1 s := rfl

theorem exec_jg (bb : Mode) (a1 : Addr1) (a2 : Addr2) (s : State) :
    exec (.jg bb a1 a2) s = jumpIf (decide (0 < s16 (flagWord s.flags))) bb a1 s := rfl

theorem exec_jl (bb : Mode) (a1 : Addr1) (a2 : Addr2) (s : State) :
    exec (.jl bb a1 a2) s = jumpIf (decide (s16 (flagWord s.flags) < 0)) bb a1 s := rfl

/-- `jumpRule_of_jumpIf` for a meaning that decides a proposition on the flags. -/
theorem jumpRule_of_decide {make : Mode → Addr1 → Addr2 → Instr} {test taken : Flags → Prop} [DecidablePred test]
    (htest : ∀ f, test f ↔ taken f)
    (hx : ∀ bb a1 a2 s, exec (make bb a1 a2) s = jumpIf (decide (test s.flags)) bb a1 s) : JumpRule make taken :=
  jumpRule_of_jumpIf (fun f => (htest f).symm.trans decide_eq_true_iff.symm) hx

/-! ## The tests of the flag word, on the flags -/

/-- The zero test of `flagWord_tests`, as a proposition (R201). -/
theorem flagWord_eq_zero_iff (f : Flags) :
    flagWord f = 0#16 ↔ f.s = false ∧ f.v = false ∧ f.z = false ∧ f.c = false := by
  obtain ⟨hzero, -, -⟩ := flagWord_tests f
  rw [← decide_eq_true_iff (p := flagWord f = 0#16), hzero]
  simp only [Bool.and_eq_true, Bool.not_eq_true', and_assoc]

/-- The positive test of `flagWord_tests`, as a proposition (R202). -/
theorem flagWord_pos_iff (f : Flags) :
    0 < s16 (flagWord f) ↔ f.s = false ∧ (f.v = true ∨ f.z = true ∨ f.c = true) := by
  obtain ⟨-, hpos, -⟩ := flagWord_tests f
  rw [← decide_eq_true_iff (p := 0 < s16 (flagWord f)), hpos]
  simp only [Bool.and_eq_true, Bool.or_eq_true, Bool.not_eq_true', or_assoc]

/-! ## The obligations -/

/-- Settles O45: the shared jump under the zero test, which holds when every flag is clear. -/
theorem jzJumpsOnZeroFlagWord : Obligations.JzJumpsOnZeroFlagWord :=
  ⟨jumpRule_of_decide flagWord_eq_zero_iff exec_jz, fun bb a1 a2 => opField_packWord 0x41#8 bb.bits a1 a2⟩

/-- Settles O46: the shared jump under the positive test, which holds when S is clear and another flag is set. -/
theorem jgJumpsOnPositiveFlagWord : Obligations.JgJumpsOnPositiveFlagWord :=
  ⟨jumpRule_of_decide flagWord_pos_iff exec_jg, fun bb a1 a2 => opField_packWord 0x42#8 bb.bits a1 a2⟩

/-- Settles O47: the shared jump under the sign test, which holds when S is set. -/
theorem jlJumpsOnNegativeFlagWord : Obligations.JlJumpsOnNegativeFlagWord :=
  ⟨jumpRule_of_decide flagWord_toInt_neg_iff exec_jl, fun bb a1 a2 => opField_packWord 0x43#8 bb.bits a1 a2⟩

end Sys2Proof.Machine
end

section
/-! SUPPORT. The register operations (45_register_ops.md R220 to R224): LOAD and STORE at absolute addresses, which are
all in bounds, and the one register write in which ADDR, SUBR and MOVR complete. -/

namespace Sys2Proof.Machine

/-! ## Absolute addresses -/

theorem windowFits_zextA1 (a1 : Addr1) : WindowFits (zextA1 a1) := by
  have := zextA1_toNat a1
  simp only [WindowFits]
  omega

theorem windowFits_zextA2 (a2 : Addr2) : WindowFits (zextA2 a2) := by
  have := zextA2_toNat a2
  simp only [WindowFits]
  omega

/-- A read at an absolute `A2` never raises (R220). -/
theorem memRead_zextA2 (m : Memory) (a2 : Addr2) : memRead m (zextA2 a2) = .ok (m.wordAt a2.toNat) := by
  rw [memRead_of_fits m (windowFits_zextA2 a2), zextA2_toNat]

/-! ## Register writes -/

theorem withReg_of_zero {i : RegIndex} (s : State) (v : Word) (h : i.toNat = 0) : s.withReg i v = { s with r0 := v } :=
  if_pos (BitVec.eq_of_toNat_eq h)

theorem withReg_of_one {i : RegIndex} (s : State) (v : Word) (h : i.toNat = 1) : s.withReg i v = { s with r1 := v } := by
  obtain rfl : i = 1#3 := BitVec.eq_of_toNat_eq h
  rfl

/-- A register write changes the two registers at most. -/
theorem withReg_frame (s : State) (i : RegIndex) (v : Word) :
    s.withReg i v = { s with r0 := (s.withReg i v).r0, r1 := (s.withReg i v).r1 } := by
  unfold State.withReg
  split
  · rfl
  · split <;> rfl

theorem withReg_withFlags_self (s : State) (i : RegIndex) (v : Word) :
    (s.withReg i v).withFlags s.flags = s.withReg i v := by
  rw [← State.withReg_flags s i v]
  rfl

/-- A class RR instruction completed: `v` is in the register `d`, the other register is as before, its flags are `f`,
IP advanced, and nothing else changed. -/
def CompletedRegisterWrite (s t : State) (d : RegIndex) (v : Word) (f : Flags) : Prop :=
  regRead t d = .ok v ∧ (d ≠ 0#3 → t.r0 = s.r0) ∧ (d ≠ 1#3 → t.r1 = s.r1) ∧ Advanced s t ∧
    t = { s with r0 := t.r0, r1 := t.r1, ip := t.ip, flags := f }

theorem completedRegisterWrite (s : State) {d : RegIndex} (v : Word) (f : Flags) (hd : d.toNat < 2) :
    CompletedRegisterWrite s ((s.withReg d v).withFlags f).advance d v f := by
  have hip : ((s.withReg d v).withFlags f).advance.ip = s.ip + 1#16 := by simp
  refine ⟨regRead_withReg hd rfl rfl, ?r0, ?r1, advanced_of_ip hip, ?frame⟩
  case r0 =>
    intro h
    simp [h]
  case r1 =>
    intro h
    simp [h]
  case frame =>
    rw [hip]
    exact congrArg (fun u => (u.withFlags f).advance) (withReg_frame s d v)

/-! ## What each instruction runs -/

section
variable (bb : Mode) (a1 : Addr1) (a2 : Addr2) (s : State)

theorem exec_load : exec (.load bb a1 a2) s = orRaise s (checkIndex (a1Index a1)) fun _ =>
    .next (s.withReg (a1Index a1) (s.mem.wordAt a2.toNat)).advance := by
  change execLoad bb a1 a2 s = _
  rw [execLoad, memRead_zextA2]
  rfl

theorem exec_store : exec (.store bb a1 a2) s = orRaise s (regRead s (a2Index a2)) fun v =>
    .next (s.withMem (s.mem.setWord (zextA1 a1).toNat v)).advance :=
  congrArg (orRaise s _) (funext fun v => storeWord_of_fits s v (windowFits_zextA1 a1))

theorem exec_addr : exec (.addr bb a1 a2) s = orRaise s (registerPair s a1 a2) fun p =>
    .next ((s.withReg (a1Index a1) (trunc32 (s32 p.1 + s32 p.2))).withFlags
      (addFlags s.cfg.carryAdd p.1 p.2 (trunc32 (s32 p.1 + s32 p.2)))).advance := rfl

theorem exec_subr : exec (.subr bb a1 a2) s = orRaise s (registerPair s a1 a2) fun p =>
    .next ((s.withReg (a1Index a1) (trunc32 (s32 p.1 - s32 p.2))).withFlags
      (subFlags p.1 p.2 (trunc32 (s32 p.1 - s32 p.2)))).advance := rfl

/-- Checking `d` and then reading `s` is reading both registers for the second word. -/
theorem orRaise_checkIndex_regRead (k : Word → Result) :
    (orRaise s (checkIndex (a1Index a1)) fun _ => orRaise s (regRead s (a2Index a2)) k) =
      orRaise s (registerPair s a1 a2) fun p => k p.2 := by
  rcases registerPair_cases s a1 a2 with ⟨a, b, hd, hs, hpair⟩ | ⟨hd, hpair⟩ | ⟨hd, hs, hpair⟩
  · rw [hpair, checkIndex_of_valid (valid_of_regRead hd), hs]
    rfl
  · rw [hpair, checkIndex_of_invalid hd]
    rfl
  · rw [hpair, checkIndex_of_valid hd, regRead_of_invalid hs]
    rfl

theorem exec_movr : exec (.movr bb a1 a2) s = orRaise s (registerPair s a1 a2) fun p =>
    .next ((s.withReg (a1Index a1) p.2).withFlags s.flags).advance := by
  simp only [withReg_withFlags_self]
  exact orRaise_checkIndex_regRead a1 a2 s fun v => .next (s.withReg (a1Index a1) v).advance

end

/-! ## Class RR: the completion, and the errors in the order of the checks -/

section
variable {i : Instr} {s : State} {a1 : Addr1} {a2 : Addr2} {k : Word × Word → Result}

theorem exec_completes_of_registerPair {a b v : Word} {f : Flags} (hi : exec i s = orRaise s (registerPair s a1 a2) k)
    (hd : regRead s (a1Index a1) = .ok a) (hs : regRead s (a2Index a2) = .ok b)
    (hk : k (a, b) = .next ((s.withReg (a1Index a1) v).withFlags f).advance) :
    ∃ t, exec i s = .next t ∧ CompletedRegisterWrite s t (a1Index a1) v f := by
  refine ⟨_, ?_, completedRegisterWrite s v f (valid_of_regRead hd)⟩
  rw [hi, registerPair_of_valid hd hs, orRaise_ok, hk]

theorem exec_raises_of_invalid_first (hi : exec i s = orRaise s (registerPair s a1 a2) k)
    (hd : 2 ≤ (a1Index a1).toNat) : exec i s = .next (s.raise (.invalidRegister (a1Index a1))) := by
  rw [hi, registerPair_of_invalid_first hd, orRaise_error]

theorem exec_raises_of_invalid_second (hi : exec i s = orRaise s (registerPair s a1 a2) k)
    (hd : (a1Index a1).toNat < 2) (hs : 2 ≤ (a2Index a2).toNat) :
    exec i s = .next (s.raise (.invalidRegister (a2Index a2))) := by
  rw [hi, registerPair_of_invalid_second hd hs, orRaise_error]

end

theorem regRead_of_valid (s : State) {i : RegIndex} (h : i.toNat < 2) : ∃ v, regRead s i = .ok v := by
  rcases regRead_cases s i with ⟨_, hok⟩ | ⟨_, hok⟩ | ⟨hinvalid, _⟩
  · exact ⟨s.r0, hok⟩
  · exact ⟨s.r1, hok⟩
  · exact absurd h (Nat.not_lt.mpr hinvalid)

/-! ## The obligations -/

/-- Settles O50: the source register is read by the cases of its index, and the store at the absolute address fits. -/
theorem storeWritesTheWord : Obligations.StoreWritesTheWord := by
  intro bb a1 a2 s
  refine ⟨?completes, ?invalid, opField_packWord 0x45#8 bb.bits a1 a2⟩
  case completes =>
    intro v hv
    have hread : regRead s (a2Index a2) = .ok v := by
      rcases hv with ⟨hs, rfl⟩ | ⟨hs, rfl⟩
      · exact regRead_of_zero hs
      · exact regRead_of_one hs
    rw [exec_store, hread, orRaise_ok]
    exact ⟨_, rfl, storedOnly_of_mem rfl, zextA1_toNat a1, advanced_of_ip rfl, rfl⟩
  case invalid =>
    intro hs
    rw [exec_store, regRead_of_invalid hs, orRaise_error]

/-- Settles O51: class RR with the sum and the add flags. -/
theorem addrWritesTheSum : Obligations.AddrWritesTheSum := by
  intro bb a1 a2 s
  have hexec := exec_addr bb a1 a2 s
  refine ⟨?completes, exec_raises_of_invalid_first hexec, exec_raises_of_invalid_second hexec,
    opField_packWord 0x14#8 bb.bits a1 a2⟩
  case completes =>
    intro a b hd hs res
    refine exec_completes_of_registerPair hexec hd hs ?_
    rw [← addFlags_eq s.cfg.carryAdd (rfl : res = _)]

/-- Settles O52: class RR with the difference and the subtract flags. -/
theorem subrWritesTheDifference : Obligations.SubrWritesTheDifference := by
  intro bb a1 a2 s
  have hexec := exec_subr bb a1 a2 s
  refine ⟨?completes, exec_raises_of_invalid_first hexec, exec_raises_of_invalid_second hexec,
    opField_packWord 0x15#8 bb.bits a1 a2⟩
  case completes =>
    intro a b hd hs res
    refine exec_completes_of_registerPair hexec hd hs ?_
    rw [← subFlags_eq a b res]

/-- Settles O49: the index decides between the two register writes and the error; the read at the absolute address
answers in every case. -/
theorem loadWritesTheRegister : Obligations.LoadWritesTheRegister := by
  intro bb a1 a2 s
  rw [exec_load]
  refine ⟨?r0, ?r1, ?invalid, opField_packWord 0x44#8 bb.bits a1 a2⟩
  case r0 =>
    intro hd
    rw [checkIndex_of_valid (by omega), orRaise_ok, withReg_of_zero s _ hd]
    rfl
  case r1 =>
    intro hd
    rw [checkIndex_of_valid (by omega), orRaise_ok, withReg_of_one s _ hd]
    rfl
  case invalid =>
    intro hd
    rw [checkIndex_of_invalid hd, orRaise_error]

/-- Settles O53: class RR with the source word and the flags as they were; a valid destination is readable. -/
theorem movrCopiesTheRegister : Obligations.MovrCopiesTheRegister := by
  intro bb a1 a2 s
  have hexec := exec_movr bb a1 a2 s
  refine ⟨?completes, exec_raises_of_invalid_first hexec, exec_raises_of_invalid_second hexec,
    opField_packWord 0x16#8 bb.bits a1 a2⟩
  case completes =>
    intro v hd hs
    obtain ⟨_, hdest⟩ := regRead_of_valid s hd
    exact exec_completes_of_registerPair hexec hdest hs rfl

end Sys2Proof.Machine
end

section
/-! SUPPORT. The decoder and the encoder invert each other (30_encoding.md R81, R82, R86). -/

namespace Sys2Proof

open Machine (wordOfBytes_bytesOfWord)

/-- The word of every instruction decodes to it, by the law of its row. -/
theorem decodeWord_encode (i : Instr) : decodeWord (encode i) = .ok i := by
  cases i with
  | stop bb a1 a2 => exact Laws.DecodeEncode.stop bb a1 a2
  | iadd bb a1 a2 => exact Laws.DecodeEncode.iadd bb a1 a2
  | isub bb a1 a2 => exact Laws.DecodeEncode.isub bb a1 a2
  | imul bb a1 a2 => exact Laws.DecodeEncode.imul bb a1 a2
  | idiv bb a1 a2 => exact Laws.DecodeEncode.idiv bb a1 a2
  | iin bb a1 a2 => exact Laws.DecodeEncode.iin bb a1 a2
  | iout bb a1 a2 => exact Laws.DecodeEncode.iout bb a1 a2
  | addr bb a1 a2 => exact Laws.DecodeEncode.addr bb a1 a2
  | subr bb a1 a2 => exact Laws.DecodeEncode.subr bb a1 a2
  | movr bb a1 a2 => exact Laws.DecodeEncode.movr bb a1 a2
  | radd bb a1 a2 => exact Laws.DecodeEncode.radd bb a1 a2
  | rsub bb a1 a2 => exact Laws.DecodeEncode.rsub bb a1 a2
  | rmul bb a1 a2 => exact Laws.DecodeEncode.rmul bb a1 a2
  | rdiv bb a1 a2 => exact Laws.DecodeEncode.rdiv bb a1 a2
  | rin bb a1 a2 => exact Laws.DecodeEncode.rin bb a1 a2
  | rout bb a1 a2 => exact Laws.DecodeEncode.rout bb a1 a2
  | jz bb a1 a2 => exact Laws.DecodeEncode.jz bb a1 a2
  | jg bb a1 a2 => exact Laws.DecodeEncode.jg bb a1 a2
  | jl bb a1 a2 => exact Laws.DecodeEncode.jl bb a1 a2
  | load bb a1 a2 => exact Laws.DecodeEncode.load bb a1 a2
  | store bb a1 a2 => exact Laws.DecodeEncode.store bb a1 a2

/-- Four bytes decode exactly where their little-endian word does. -/
theorem decodeBytes_ok_iff (b0 b1 b2 b3 : Byte) (rest : List Byte) (i : Instr) :
    decodeBytes (b0 :: b1 :: b2 :: b3 :: rest) = .ok (i, rest) ↔ decodeWord (wordOfBytes b0 b1 b2 b3) = .ok i := by
  rw [decodeBytes]
  cases decodeWord (wordOfBytes b0 b1 b2 b3) <;> simp

/-- Settles O1: the four bytes make up the encoded word again, which decodes to its instruction. -/
theorem decodeInvertsEncode : Obligations.DecodeInvertsEncode := by
  intro i rest
  refine (decodeBytes_ok_iff _ _ _ _ rest i).mpr ?_
  rw [wordOfBytes_bytesOfWord, decodeWord_encode]

/-- Settles O2: the decoded instruction packs the word's own fields. -/
theorem encodeInvertsDecode : Obligations.EncodeInvertsDecode := fun _ _ => encode_of_decodeWord

/-- Settles O4: a row's instruction is encoded under the row's opcode, so that opcode decodes to it. -/
theorem opcodeMapIsTheTable : Obligations.OpcodeMapIsTheTable := by
  refine ⟨rfl, fun bb a1 a2 => ⟨rfl, ?opcodes, ?decode⟩⟩
  case opcodes =>
    refine List.map_congr_left fun row hrow => ?_
    rw [encode_make hrow, opField_packWord]
  case decode =>
    intro row hrow
    rw [← encode_make hrow, decodeWord_encode]

/-- Settles O5: each legal word is the packing of its instruction's fields; the last has an opcode that no row holds. -/
theorem sampleWordsDecode : Obligations.SampleWordsDecode :=
  ⟨decodeWord_encode (.iadd .absolute 0x100#12 0x101#10), decodeWord_encode (.iout .indirectDisp 0x101#12 0x000#10),
    decodeWord_encode (.jz .indirect 0x005#12 0x000#10), decodeWord_encode (.load .absolute 0x001#12 0x3FF#10),
    decodeWord_encode (.store .absolute 0x14D#12 0x001#10), decodeWord_encode (.rdiv .absolute 0x100#12 0x104#10),
    by decide⟩

end Sys2Proof
end

section
/-! SUPPORT. A word as the sum of its bytes (20_memory.md R52, R53), and what its byte windows say of one another. -/

namespace Sys2Proof

theorem byteOfWord_toNat (w : Word) (i : Nat) : (byteOfWord w i).toNat = w.toNat / 2 ^ (8 * i) % 2 ^ 8 := by
  rw [byteOfWord, BitVec.extractLsb'_toNat, Nat.shiftRight_eq_div_pow]

theorem opField_toNat (w : Word) : (opField w).toNat = w.toNat / 2 ^ 24 := by
  rw [opField, BitVec.extractLsb'_toNat, Nat.shiftRight_eq_div_pow]
  omega

theorem bbField_toNat (w : Word) : (bbField w).toNat = w.toNat / 2 ^ 22 % 2 ^ 2 := by
  rw [bbField, BitVec.extractLsb'_toNat, Nat.shiftRight_eq_div_pow]

theorem a1Field_toNat (w : Word) : (a1Field w).toNat = w.toNat / 2 ^ 10 % 2 ^ 12 := by
  rw [a1Field, BitVec.extractLsb'_toNat, Nat.shiftRight_eq_div_pow]

theorem wordOfBytes_toNat (b0 b1 b2 b3 : Byte) :
    (wordOfBytes b0 b1 b2 b3).toNat =
      b0.toNat + 2 ^ 8 * b1.toNat + 2 ^ 16 * b2.toNat + 2 ^ 24 * b3.toNat := by
  rw [wordOfBytes, BitVec.toNat_append, BitVec.toNat_append, BitVec.toNat_append,
    ← Nat.shiftLeft_add_eq_or_of_lt b0.isLt, ← Nat.shiftLeft_add_eq_or_of_lt b1.isLt,
    ← Nat.shiftLeft_add_eq_or_of_lt b2.isLt]
  simp only [Nat.shiftLeft_eq]
  omega

/-- The opcode is the byte at the highest address. -/
theorem opField_wordOfBytes (b0 b1 b2 b3 : Byte) : opField (wordOfBytes b0 b1 b2 b3) = b3 := by
  have h0 := b0.isLt
  have h1 := b1.isLt
  have h2 := b2.isLt
  refine BitVec.eq_of_toNat_eq ?_
  rw [opField_toNat, wordOfBytes_toNat]
  omega

namespace Machine

theorem Memory.wordAt_toNat (m : Memory) (a : Nat) :
    (m.wordAt a).toNat = (m.byteAt a).toNat + 2 ^ 8 * (m.byteAt (a + 1)).toNat + 2 ^ 16 * (m.byteAt (a + 2)).toNat +
      2 ^ 24 * (m.byteAt (a + 3)).toNat :=
  wordOfBytes_toNat _ _ _ _

theorem opField_wordAt (m : Memory) (a : Nat) : opField (m.wordAt a) = m.byteAt (a + 3) :=
  opField_wordOfBytes _ _ _ _

/-! ## The bytes of a stored word -/

section
variable (m : Memory) (a : Nat) (v : Word)

theorem Memory.byteAt_setWord_zero : (m.setWord a v).byteAt a = byteOfWord v 0 := by simp [Memory.byteAt_setWord]
theorem Memory.byteAt_setWord_one : (m.setWord a v).byteAt (a + 1) = byteOfWord v 1 := by simp [Memory.byteAt_setWord]
theorem Memory.byteAt_setWord_two : (m.setWord a v).byteAt (a + 2) = byteOfWord v 2 := by simp [Memory.byteAt_setWord]
theorem Memory.byteAt_setWord_three : (m.setWord a v).byteAt (a + 3) = byteOfWord v 3 := by simp [Memory.byteAt_setWord]

end

/-! ## A checked access that answers -/

theorem memRead_eq_ok {m : Memory} {a : Addr} {w : Word} (h : memRead m a = .ok w) : w = m.wordAt a.toNat := by
  rcases memRead_cases m a with ⟨_, hok⟩ | ⟨_, herr⟩
  · exact Except.ok.inj (h.symm.trans hok)
  · cases h.symm.trans herr

theorem memWrite_eq_ok {m m' : Memory} {a : Addr} {v : Word} (h : memWrite m a v = .ok m') :
    WindowFits a ∧ m' = m.setWord a.toNat v := by
  rcases memWrite_cases m a v with ⟨hfits, hok⟩ | ⟨_, herr⟩
  · exact ⟨hfits, Except.ok.inj (h.symm.trans hok)⟩
  · cases h.symm.trans herr

/-- Settles O8: the sum of the four bytes, and the bytes of a stored word as the digits of its value. -/
theorem wordsAreLittleEndian : Obligations.WordsAreLittleEndian := by
  constructor
  · intro m a w h
    rw [memRead_eq_ok h, Memory.wordAt_toNat]
  · intro m m' a v h
    obtain ⟨hfits, rfl⟩ := memWrite_eq_ok h
    refine ⟨?byte0, ?byte1, ?byte2, ?byte3, ?readBack, ?frame⟩
    case byte0 => rw [Memory.byteAt_setWord_zero, byteOfWord_toNat, Nat.mul_zero, Nat.pow_zero, Nat.div_one]
    case byte1 => rw [Memory.byteAt_setWord_one, byteOfWord_toNat]
    case byte2 => rw [Memory.byteAt_setWord_two, byteOfWord_toNat]
    case byte3 =>
      rw [Memory.byteAt_setWord_three, byteOfWord_toNat]
      omega
    case readBack => rw [memRead_of_fits _ hfits, Memory.wordAt_setWord]
    case frame => exact fun x hx => Memory.byteAt_setWord_of_outside m _ x v hx

/-- Settles O9: the second write covers all of the first one's bytes but the lowest. -/
theorem overlappingWindowsKeepTheLastWrite : Obligations.OverlappingWindowsKeepTheLastWrite := by
  intro m a b v w hb hfits
  have hfitsA : WindowFits a := by omega
  have hfitsB : WindowFits b := by omega
  refine ⟨_, _, memWrite_of_fits m v hfitsA, memWrite_of_fits _ w hfitsB, ?_⟩
  rw [memRead_of_fits _ hfitsA, memRead_of_fits _ hfitsB, hb]
  have hlow : ((m.setWord a.toNat v).setWord (a.toNat + 1) w).byteAt a.toNat = byteOfWord v 0 := by
    rw [Memory.byteAt_setWord_of_outside _ _ _ _ (.inl (Nat.lt_succ_self _)), Memory.byteAt_setWord_zero]
  refine ⟨?lowByte, by rw [Memory.wordAt_setWord], _, rfl, ?firstWord⟩
  case lowByte => rw [hlow, byteOfWord_toNat, Nat.mul_zero, Nat.pow_zero, Nat.div_one]
  case firstWord =>
    have h1 := Memory.byteAt_setWord_one (m.setWord a.toNat v) (a.toNat + 1) w
    have h2 := Memory.byteAt_setWord_two (m.setWord a.toNat v) (a.toNat + 1) w
    rw [Memory.wordAt_toNat, hlow, Memory.byteAt_setWord_zero, h1, h2]
    simp only [byteOfWord_toNat]
    omega

/-- Settles O12: both words as sums of their bytes, of which they share three. -/
theorem fetchWindowsShareThreeBytes : Obligations.FetchWindowsShareThreeBytes := by
  intro m k
  have h0 := (m.byteAt k).isLt
  have h1 := (m.byteAt (k + 1)).isLt
  have h2 := (m.byteAt (k + 2)).isLt
  have h3 := (m.byteAt (k + 3)).isLt
  have hthis := m.wordAt_toNat k
  have hnext : (m.wordAt (k + 1)).toNat = (m.byteAt (k + 1)).toNat + 2 ^ 8 * (m.byteAt (k + 2)).toNat +
      2 ^ 16 * (m.byteAt (k + 3)).toNat + 2 ^ 24 * (m.byteAt (k + 4)).toNat := m.wordAt_toNat (k + 1)
  rw [bbField_toNat, a1Field_toNat, opField_wordAt m k]
  refine ⟨?shared, ?mode, ?address, opField_wordAt m (k + 1)⟩
  case shared => omega
  case mode => omega
  case address => omega

end Machine
end Sys2Proof
end

section
/-! SUPPORT. A canonical memory is determined by what it reads as (log entry 10), and the Preload port's byte accesses
(20_memory.md R56, R57). -/

namespace Sys2Proof.Machine

theorem Memory.wfFrom_cons_iff (lo : Nat) (c : Host.Cell) (m : Memory) :
    Memory.wfFrom lo (c :: m) = true ↔
      lo ≤ c.1 ∧ c.1 < 65536 ∧ c.2 ≠ Memory.unlisted ∧ Memory.wfFrom (c.1 + 1) m = true := by
  simp only [Memory.wfFrom, isValidAddress, Bool.and_eq_true, decide_eq_true_eq, and_assoc]

@[simp] theorem Memory.byteAt_cons_self (c : Host.Cell) (m : Memory) : Memory.byteAt (c :: m) c.1 = c.2 := if_pos rfl

theorem Memory.byteAt_cons_of_ne {c : Host.Cell} {x : Nat} (m : Memory) (h : c.1 ≠ x) :
    Memory.byteAt (c :: m) x = m.byteAt x := if_neg h

/-- A canonical list holds no address below its bound. -/
theorem Memory.byteAt_of_lt_wfFrom {m : Memory} {lo x : Nat} (h : Memory.wfFrom lo m = true) (hx : x < lo) :
    m.byteAt x = Memory.unlisted := by
  induction m generalizing lo with
  | nil => rfl
  | cons c m ih =>
    obtain ⟨hlo, _, _, htail⟩ := (Memory.wfFrom_cons_iff lo c m).mp h
    rw [Memory.byteAt_cons_of_ne m (by omega)]
    exact ih htail (by omega)

/-- Of two lists that read alike, the first address of a canonical one is no later than the other's, whose first byte
it could not answer otherwise. -/
theorem Memory.first_le_of_byteAt_eq {c c' : Host.Cell} {m m' : Memory} {lo : Nat}
    (h : Memory.wfFrom lo (c :: m) = true) (hlisted' : c'.2 ≠ Memory.unlisted)
    (hread : ∀ a, Memory.byteAt (c :: m) a = Memory.byteAt (c' :: m') a) : c.1 ≤ c'.1 := by
  obtain ⟨_, _, _, htail⟩ := (Memory.wfFrom_cons_iff lo c m).mp h
  by_contra hlt
  have hfirst := hread c'.1
  rw [Memory.byteAt_cons_self, Memory.byteAt_cons_of_ne m (by omega),
    Memory.byteAt_of_lt_wfFrom htail (by omega)] at hfirst
  exact hlisted' hfirst.symm

/-- Canonical lists that read alike are equal: they start with the same entry, and their tails read alike. -/
theorem Memory.eq_of_byteAt_eq {m m' : Memory} {lo : Nat} (h : Memory.wfFrom lo m = true)
    (h' : Memory.wfFrom lo m' = true) (hread : ∀ a, m.byteAt a = m'.byteAt a) : m = m' := by
  induction m generalizing lo m' with
  | nil =>
    cases m' with
    | nil => rfl
    | cons c' m' =>
      obtain ⟨_, _, hlisted', _⟩ := (Memory.wfFrom_cons_iff lo c' m').mp h'
      exact absurd ((Memory.byteAt_cons_self c' m').symm.trans (hread c'.1).symm) hlisted'
  | cons c m ih =>
    obtain ⟨_, _, hlisted, htail⟩ := (Memory.wfFrom_cons_iff lo c m).mp h
    cases m' with
    | nil => exact absurd ((Memory.byteAt_cons_self c m).symm.trans (hread c.1)) hlisted
    | cons c' m' =>
      obtain ⟨_, _, hlisted', htail'⟩ := (Memory.wfFrom_cons_iff lo c' m').mp h'
      have haddr : c.1 = c'.1 :=
        Nat.le_antisymm (Memory.first_le_of_byteAt_eq h hlisted' hread)
          (Memory.first_le_of_byteAt_eq h' hlisted fun a => (hread a).symm)
      have hbyte : c.2 = c'.2 := by
        have hfirst := hread c.1
        rwa [Memory.byteAt_cons_self, haddr, Memory.byteAt_cons_self] at hfirst
      obtain rfl : c = c' := Prod.ext haddr hbyte
      refine congrArg (c :: ·) (ih htail htail' fun a => ?_)
      by_cases ha : c.1 = a
      · rw [Memory.byteAt_of_lt_wfFrom htail (by omega), Memory.byteAt_of_lt_wfFrom htail' (by omega)]
      · have hrest := hread a
        rwa [Memory.byteAt_cons_of_ne m ha, Memory.byteAt_cons_of_ne m' ha] at hrest

/-- Settles O10: the canonical form from address 0 on. -/
theorem canonicalMemoriesReadingAlikeAreEqual : Obligations.CanonicalMemoriesReadingAlikeAreEqual :=
  fun _ _ hwf hwf' hread => Memory.eq_of_byteAt_eq (lo := 0) hwf hwf' hread

/-- Settles O11: the port's check is the comparison with 65536, and behind it stand the byte read and the byte write. -/
theorem preloadPortMovesBytes : Obligations.PreloadPortMovesBytes := by
  refine ⟨fun m a v => ⟨fun ha => ?invalid, fun ha => ?valid⟩, fun m x => rfl⟩
  case invalid =>
    have hinvalid : ¬isValidAddress a = true := by simpa [isValidAddress] using ha
    exact ⟨if_neg hinvalid, if_neg hinvalid⟩
  case valid =>
    have hvalid : isValidAddress a = true := by simpa [isValidAddress] using ha
    exact ⟨if_pos hvalid, m.setByte a v, if_pos hvalid, fun x => Memory.byteAt_setByte m a x v⟩

end Sys2Proof.Machine
end

section
/-! SUPPORT. What each effect of an instruction says of the run status and of memory, read off `ExecEffect`; and that
every instruction answers. -/

namespace Sys2Proof.Machine

/-! ## Errors, STOP and memory -/

theorem Err.kind_ne_none (e : Err) : e.kind ≠ .none := by
  cases e with
  | _ => exact ErrKind.noConfusion

/-- `t` is `s` with an error of a kind that `i` may raise, some of the host's answers consumed perhaps. -/
def RaisedFrom (i : Instr) (s t : State) : Prop :=
  ∃ (e : Err) (ints : List IntAnswer) (floats : List FloatAnswer),
    mayRaise i s e.kind ∧ t = ((s.withIntIn ints).withFloatIn floats).raise e

section
variable {i : Instr} {s t : State}

/-- An instruction that sets `error` has raised, and changed nothing but the answers before it. -/
theorem ExecEffect.raisedFrom (h : ExecEffect i s t) (hs : s.error = false) (herr : t.error = true) :
    RaisedFrom i s t := by
  cases h with
  | raised e ht hk => exact ⟨e, s.intIn, s.floatIn, hk, ht⟩
  | raisedAfterInt e _ rest _ _ ht hk => exact ⟨e, rest, s.floatIn, hk, ht⟩
  | raisedAfterFloat e _ rest _ _ ht hk => exact ⟨e, s.intIn, rest, hk, ht⟩
  | _ =>
    subst_vars
    simp [hs] at herr

/-- An instruction that does not raise leaves ERR and the diagnostic alone. -/
theorem ExecEffect.err_of_not_error (h : ExecEffect i s t) (herr : t.error = false) :
    t.err = s.err ∧ t.errInfo = s.errInfo := by
  cases h with
  | raised _ ht | raisedAfterInt _ _ _ _ _ ht | raisedAfterFloat _ _ _ _ _ ht => simp [ht] at herr
  | _ =>
    subst_vars
    simp

/-- `stop` is set by STOP alone. -/
theorem ExecEffect.halted_of_stop (h : ExecEffect i s t) (hs : s.stop = false) (hstop : t.stop = true) :
    t = s.halt ∧ ∃ bb a1 a2, i = .stop bb a1 a2 := by
  cases h with
  | halted hi ht => exact ⟨ht, hi⟩
  | _ =>
    subst_vars
    simp [hs] at hstop

theorem ExecEffect.resetDone_eq (h : ExecEffect i s t) : t.resetDone = s.resetDone := by
  cases h with
  | _ =>
    subst_vars
    simp

/-- Memory changes by one word stored at the instruction's address, if at all. -/
theorem ExecEffect.mem_cases (h : ExecEffect i s t) :
    t.mem = s.mem ∨ ∃ (e : Addr) (w : Word), storeAddress i s = some e ∧ WindowFits e ∧
      t.mem = s.mem.setWord e.toNat w := by
  cases h with
  | storedResult e w _ _ _ _ ha hf ht | storedInt e w _ _ _ _ ha hf ht | storedFloat e w _ _ _ _ ha hf ht
  | storedRegister e w _ ha hf ht => exact .inr ⟨e, w, ha, hf, by rw [ht]; rfl⟩
  | _ =>
    subst_vars
    simp

end

/-! ## Every instruction answers -/

/-- The meaning answers a next state: no fault, no refusal. -/
def Answers (r : Result) : Prop := ∃ t, r = .next t

theorem answers_next (t : State) : Answers (.next t) := ⟨t, rfl⟩

theorem orRaise_answers {α : Type} {s : State} {r : Except Err α} {k : α → Result} (hk : ∀ x, Answers (k x)) :
    Answers (orRaise s r k) := by
  cases r with
  | ok x => exact hk x
  | error e => exact answers_next (s.raise e)

theorem storeResult_answers (s : State) (e : Addr) (w : Word) (f : Flags) : Answers (storeResult s e w f) :=
  orRaise_answers fun _ => answers_next _

theorem storeWord_answers (s : State) (e : Addr) (w : Word) : Answers (storeWord s e w) :=
  orRaise_answers fun _ => answers_next _

theorem jumpIf_answers (taken : Bool) (bb : Mode) (a1 : Addr1) (s : State) : Answers (jumpIf taken bb a1 s) := by
  cases taken with
  | false => exact answers_next s.advance
  | true => exact orRaise_answers fun _ => answers_next _

theorem emitWord_answers (view : Word → OutEvent) (bb : Mode) (a1 : Addr1) (s : State) :
    Answers (emitWord view bb a1 s) :=
  orRaise_answers fun _ => orRaise_answers fun _ => answers_next _

/-- An instruction that divides raises on a zero divisor or stores. -/
theorem ite_raise_answers {c : Prop} [Decidable c] {s : State} {e : Err} {r : Result} (hr : Answers r) :
    Answers (if c then .next (s.raise e) else r) := by
  split
  · exact answers_next (s.raise e)
  · exact hr

theorem exec_answers (i : Instr) (s : State) : Answers (exec i s) := by
  cases i with
  | stop bb a1 a2 => exact answers_next s.halt
  | iadd bb a1 a2 | isub bb a1 a2 | imul bb a1 a2 | radd bb a1 a2 | rsub bb a1 a2 | rmul bb a1 a2 =>
    exact orRaise_answers fun _ => storeResult_answers s _ _ _
  | idiv bb a1 a2 | rdiv bb a1 a2 => exact orRaise_answers fun _ => ite_raise_answers (storeResult_answers s _ _ _)
  | iin bb a1 a2 =>
    refine orRaise_answers fun e1 => ?_
    split
    · exact answers_next s
    · exact answers_next _
    · exact storeWord_answers _ e1 _
  | rin bb a1 a2 =>
    refine orRaise_answers fun e1 => ?_
    split
    · exact answers_next s
    · exact answers_next _
    · exact storeWord_answers _ e1 _
  | iout bb a1 a2 | rout bb a1 a2 => exact emitWord_answers _ bb a1 s
  | jz bb a1 a2 | jg bb a1 a2 | jl bb a1 a2 => exact jumpIf_answers _ bb a1 s
  | load bb a1 a2 | movr bb a1 a2 => exact orRaise_answers fun _ => orRaise_answers fun _ => answers_next _
  | store bb a1 a2 => exact orRaise_answers fun _ => storeWord_answers s _ _
  | addr bb a1 a2 | subr bb a1 a2 => exact orRaise_answers fun _ => answers_next _

end Sys2Proof.Machine
end

section
/-! The step: what it runs, and where it is defined (40_fetch_decode_dispatch.md section 1). -/

namespace Sys2Proof.Machine

/-- Settles O14: the four bytes are the word at IP, which discrimination lets through to the decoder. -/
theorem stepRunsTheDecodedInstruction : Obligations.StepRunsTheDecodedInstruction := by
  intro s i hr hs he hfits hbytes hzero
  have hm := memRead_of_fits s.mem (a := s.ip) (Nat.le_of_lt_succ hfits)
  have hd : decodeWord (s.mem.wordAt s.ip.toNat) = .ok i := (decodeBytes_ok_iff _ _ _ _ [] i).mp hbytes
  refine step_of_fetchInstr_ok hr hs he ?_
  rcases hzero with htop | hstop
  · exact fetchInstr_of_decodeWord_ok hm (by rwa [opField_wordAt]) hd
  · rw [fetchInstr_of_memRead hm, discriminate_of_zeroOpcodeFetch_stop hstop hd]

/-- Settles O15: the step's first check. -/
theorem terminalStatesHaveNoStep : Obligations.TerminalStatesHaveNoStep := by
  intro s hterminal
  have hset : (s.stop || s.error) = true := (Bool.or_eq_true _ _).mpr hterminal
  exact if_pos hset

/-- Settles O16: a fetch that raises answers the raised state, and every fetched instruction answers. -/
theorem everyDefinedStepAnswersANextState : Obligations.EveryDefinedStepAnswersANextState := by
  intro s hr hs he
  cases hf : fetchInstr s with
  | ok i =>
    rw [step_of_fetchInstr_ok hr hs he hf]
    exact exec_answers i s
  | error e => exact ⟨_, step_of_fetchInstr_error hr hs he hf⟩

end Sys2Proof.Machine
end

section
/-! The whole-machine rules (10_state.md sections 2, 4 and 5, 20_memory.md section 5, 40_fetch_decode_dispatch.md
section 1, 43_io.md sections 1 and 2, 60_exceptions.md sections 1 and 2): each says which effects write one part of the
state. -/

namespace Sys2Proof.Machine

/-- Settles O20: an instruction's error is one of its row; the fetch has its two errors. -/
theorem errorKindsFollowTheTable : Obligations.ErrorKindsFollowTheTable := by
  constructor
  · intro i s t hs hx herr
    obtain ⟨e, _, _, hk, rfl⟩ := (exec_effect hx).raisedFrom hs herr
    exact hk
  · intro s e hf
    rcases fetchInstr_cases s with ⟨_, _, _, _, hok, _⟩ | ⟨w, _, herr⟩ | ⟨hout, herr⟩
    · cases hok.symm.trans hf
    · obtain rfl : .invalidOpcode w = e := Except.error.inj (herr.symm.trans hf)
      exact .inr rfl
    · obtain rfl : .outOfBounds s.ip = e := Except.error.inj (herr.symm.trans hf)
      exact .inl ⟨rfl, by omega⟩

/-- Settles O21: the error is raised by the fetch or by the instruction, before any other effect. -/
theorem errorsArePrecise : Obligations.ErrorsArePrecise := by
  intro s t hstep herr
  obtain ⟨_, _, hs, ⟨i, _, hx⟩ | ⟨e, _, rfl⟩⟩ := step_cases hstep
  · obtain ⟨e, ints, floats, _, rfl⟩ := (exec_effect hx).raisedFrom hs herr
    exact ⟨e.kind_ne_none, rfl⟩
  · exact ⟨e.kind_ne_none, rfl⟩

/-- Settles O22: a step starts with `stop` clear, a raising fetch leaves it so, and of the instructions STOP alone
sets it. -/
theorem stopIsSetOnlyByStop : Obligations.StopIsSetOnlyByStop := by
  intro s t hstep hstop
  obtain ⟨_, hs, he, ⟨i, hf, hx⟩ | ⟨e, _, rfl⟩⟩ := step_cases hstep
  · obtain ⟨rfl, bb, a1, a2, rfl⟩ := (exec_effect hx).halted_of_stop hs hstop
    exact ⟨he, rfl, bb, a1, a2, hf⟩
  · cases hs.symm.trans hstop

/-- Settles O23: the two effects that write flags are those of arithmetic instructions that completed. -/
theorem flagsAreWrittenOnlyByArithmetic : Obligations.FlagsAreWrittenOnlyByArithmetic := by
  intro i s t hs hx hnot
  cases exec_effect hx with
  | storedResult _ _ _ hw _ _ _ _ ht | wroteRegisterFlags _ _ _ _ hw _ ht => simp [hw, ht, hs] at hnot
  | _ =>
    subst_vars
    simp

/-- Settles O24: the two effects that write a register write the instruction's destination. -/
theorem registersAreWrittenOnlyByTheirInstructions : Obligations.RegistersAreWrittenOnlyByTheirInstructions := by
  intro i s t hx
  cases exec_effect hx with
  | wroteRegister d v hr _ ht | wroteRegisterFlags d v _ hr _ _ ht =>
    rw [hr, ht]
    exact ⟨fun hd => by simp [mt (congrArg some) hd], fun hd => by simp [mt (congrArg some) hd]⟩
  | _ =>
    subst_vars
    simp

/-- Settles O25: a stored word lies in the window of the instruction's address. -/
theorem memoryChangesOnlyInTheStoredWindow : Obligations.MemoryChangesOnlyInTheStoredWindow := by
  intro i s t hx
  rcases (exec_effect hx).mem_cases with hsame | ⟨e, w, haddr, _, hstored⟩
  · rw [hsame]
    exact ⟨fun _ _ _ _ => rfl, fun _ _ => rfl⟩
  · rw [hstored, haddr]
    refine ⟨fun a ha x hx => ?_, fun hnone => nomatch hnone⟩
    obtain rfl : e = a := Option.some.inj ha
    exact Memory.byteAt_setWord_of_outside s.mem _ x w hx

/-- Settles O26: one effect writes OUT, that of IOUT and ROUT, and it appends. -/
theorem outputOnlyGrows : Obligations.OutputOnlyGrows := by
  intro i s t hx
  cases exec_effect hx with
  | emitted ev hi ht => exact .inr ⟨ev, by rw [ht]; rfl, hi⟩
  | _ =>
    subst_vars
    simp

/-- Settles O27: the effects that consume an answer, raising or storing, are those of IIN and of RIN. -/
theorem hostAnswersAreConsumedInOrder : Obligations.HostAnswersAreConsumedInOrder := by
  intro i s t hx
  cases exec_effect hx with
  | raisedAfterInt _ x _ hq hi ht | storedInt _ _ x _ hq hi _ _ ht =>
    subst ht
    exact ⟨rfl, .inr ⟨⟨x, hq⟩, hi⟩, .inl rfl⟩
  | raisedAfterFloat _ x _ hq hi ht | storedFloat _ _ x _ hq hi _ _ ht =>
    subst ht
    exact ⟨rfl, .inl rfl, .inr ⟨⟨x, hq⟩, hi⟩⟩
  | _ =>
    subst_vars
    simp

/-- Settles O28: every effect but STOP's, a wait, an error and a taken jump ends in the advance. -/
theorem completedInstructionsAdvanceIp : Obligations.CompletedInstructionsAdvanceIp := by
  intro i s t hs hx herr hwait hline
  cases exec_effect hx with
  | halted hi =>
    obtain ⟨_, _, _, rfl⟩ := hi
    cases hline
  | waited hi => cases hi.symm.trans hwait
  | raised _ ht | raisedAfterInt _ _ _ _ _ ht | raisedAfterFloat _ _ _ _ _ ht => simp [ht] at herr
  | jumped _ hj => cases hj.symm.trans hline
  | _ =>
    subst_vars
    exact advanced_of_ip (by simp)

/-! ## The invariant -/

theorem inv_of_raised {t : State} (hwf : t.mem.wf = true) (herr : t.error = true) (hkind : t.err ≠ .none)
    (hstop : t.stop = false) : t.Inv := by
  refine ⟨hwf, iff_of_false hkind ?_, fun hclear => ?_, fun hboth => ?_⟩
  · simp [herr]
  · cases herr.symm.trans hclear
  · cases hstop.symm.trans hboth.1

theorem inv_of_not_error {t : State} (hwf : t.mem.wf = true) (herr : t.error = false) (hkind : t.err = .none)
    (hinfo : t.errInfo = .none) : t.Inv := by
  refine ⟨hwf, iff_of_true hkind herr, fun _ => hinfo, fun hboth => ?_⟩
  cases herr.symm.trans hboth.2

/-- A word stored in its window keeps memory canonical. -/
theorem ExecEffect.wf_mem {i : Instr} {s t : State} (h : ExecEffect i s t) (hwf : s.mem.wf = true) :
    t.mem.wf = true := by
  rcases h.mem_cases with hsame | ⟨e, w, _, hfits, hstored⟩
  · rwa [hsame]
  · rw [hstored]
    exact Memory.wf_setWord s.mem _ w hwf (Nat.lt_succ_of_le hfits)

/-- Settles O29: an error sets ERR with `error` where `stop` is clear, and what raises nothing leaves ERR and the
diagnostic alone; neither leaves memory uncanonical. -/
theorem stepKeepsTheInvariant : Obligations.StepKeepsTheInvariant := by
  intro s t ⟨hwf, hnone, hinfo, _⟩ hstep
  obtain ⟨_, hs, he, ⟨i, _, hx⟩ | ⟨e, _, rfl⟩⟩ := step_cases hstep
  · have heffect := exec_effect hx
    cases herr : t.error with
    | true =>
      obtain ⟨e, _, _, _, rfl⟩ := heffect.raisedFrom he herr
      exact inv_of_raised (heffect.wf_mem hwf) herr e.kind_ne_none hs
    | false =>
      obtain ⟨herrKept, hinfoKept⟩ := heffect.err_of_not_error herr
      exact inv_of_not_error (heffect.wf_mem hwf) herr (herrKept.trans (hnone.mpr he)) (hinfoKept.trans (hinfo he))
  · exact inv_of_raised hwf rfl e.kind_ne_none hs

end Sys2Proof.Machine
end

section
/-! SUPPORT. The float instructions (42_float_arith.md R160 to R165): where an operation has a value, which value that
is, and the flags of a pattern. -/

namespace Sys2Proof.Machine

/-! ## Patterns through their bits 30:0 -/

@[simp] theorem nanPattern_negate (w : Word) : NanPattern (negate w) ↔ NanPattern w := by
  rw [NanPattern, magBits_negate]

@[simp] theorem infPattern_negate (w : Word) : InfPattern (negate w) ↔ InfPattern w := by
  rw [InfPattern, magBits_negate]

theorem infPattern_packFloat (neg : Bool) : InfPattern (packFloat neg infMag) := magBits_packFloat neg (Nat.le_refl _)

theorem absUnits_pos {w : Word} (h : magBits w ≠ 0) : 0 < absUnits w := by
  have hzero : magUnits 0 = 0 := rfl
  exact hzero ▸ magUnits_strictMono (Nat.pos_of_ne_zero h)

/-- S is the sign of a number that is neither a zero nor a NaN, Z the zero of either sign (R160). -/
theorem floatFlags_eq (r : Word) : floatFlags r = numericFlags r := by
  have hs : isNegative r = decide (signBit r = true ∧ 0 < magBits r ∧ ¬NanPattern r) := by
    rw [Bool.eq_iff_iff, decide_eq_true_iff]
    simp only [isNegative, Bool.and_eq_true, Bool.not_eq_true', ← Bool.not_eq_true, isZero_iff, isNaN_iff, NanPattern,
      Nat.pos_iff_ne_zero, ne_eq, and_assoc]
  have hz : isZero r = decide (magBits r = 0) := by
    rw [Bool.eq_iff_iff, decide_eq_true_iff, isZero_iff]
  rw [floatFlags, numericFlags, hs, hz]

/-! ## The value of an operation, or the NaN that FP_NAN chooses -/

theorem floatResult_of_some {op : FloatOp} {a b w : Word} (h : fop op a b = some w) : floatResult op a b = w := by
  rw [floatResult, h]

theorem nanResult_of_none {op : FloatOp} {a b : Word} (h : fop op a b = none) :
    NanResult op a b (floatResult op a b) := by
  rw [floatResult, h]
  exact ⟨rfl, (isNaN_iff _).mp (isNaN_fpNan op a b)⟩

section
variable (a b : Word)

/-! ### Sums and differences -/

/-- `fadd` with its tests on bits 30:0. -/
theorem fadd_eq : fadd a b =
    if NanPattern a ∨ NanPattern b then none
    else if InfPattern a then (if InfPattern b ∧ signBit a ≠ signBit b then none else some a)
    else if InfPattern b then some b
    else if units a + units b = 0 then some (packFloat (signBit a && signBit b) 0)
    else some (packFloat (decide (units a + units b < 0)) (roundMag (units a + units b).natAbs 1)) := by
  simp only [fadd, Bool.or_eq_true, Bool.and_eq_true, bne_iff_ne, isNaN_iff, isInf_iff]

/-- A sum has no value for a NaN operand and for infinities of unlike sign (R165). -/
def SumIsNaN : Prop := NanPattern a ∨ NanPattern b ∨ (InfPattern a ∧ InfPattern b ∧ signBit a ≠ signBit b)

/-- The value of a sum that has one (R161, R165). -/
def SumValue (r : Word) : Prop :=
  if InfPattern a then r = a
  else if InfPattern b then r = b
  else if units a + units b = 0 then magBits r = 0 ∧ signBit r = (signBit a && signBit b)
  else NearestEven (decide (units a + units b < 0)) (units a + units b).natAbs 1 r

variable {a b}

theorem fadd_of_sumIsNaN (h : SumIsNaN a b) : fadd a b = none := by
  rw [fadd_eq]
  by_cases hnan : NanPattern a ∨ NanPattern b
  · exact if_pos hnan
  · obtain ⟨ha, hunlike⟩ : InfPattern a ∧ InfPattern b ∧ signBit a ≠ signBit b := by
      rcases h with hna | hnb | hinf
      · exact absurd (.inl hna) hnan
      · exact absurd (.inr hnb) hnan
      · exact hinf
    rw [if_neg hnan, if_pos ha, if_pos hunlike]

theorem fadd_of_not_sumIsNaN (h : ¬SumIsNaN a b) : ∃ r, fadd a b = some r ∧ SumValue a b r := by
  obtain ⟨hna, hnb, hlike⟩ :
      ¬NanPattern a ∧ ¬NanPattern b ∧ ¬(InfPattern a ∧ InfPattern b ∧ signBit a ≠ signBit b) := by
    simpa only [SumIsNaN, not_or] using h
  rw [fadd_eq, if_neg (not_or.mpr ⟨hna, hnb⟩)]
  unfold SumValue
  split_ifs with ha hunlike hb hz
  · exact absurd ⟨ha, hunlike⟩ hlike
  · exact ⟨a, rfl, rfl⟩
  · exact ⟨b, rfl, rfl⟩
  · exact ⟨_, rfl, magBits_packFloat _ (Nat.zero_le _), signBit_packFloat _ (Nat.zero_le _)⟩
  · exact ⟨_, rfl, nearestEven_packFloat _ _ Nat.one_pos⟩

variable (a b)

theorem floatAddRule_floatResult : FloatAddRule a b (floatResult .add a b) := by
  by_cases h : SumIsNaN a b
  · exact (if_pos h).mpr (nanResult_of_none (op := .add) (fadd_of_sumIsNaN h))
  · obtain ⟨r, hr, hvalue⟩ := fadd_of_not_sumIsNaN h
    rw [floatResult_of_some (op := .add) hr]
    exact (if_neg h).mpr hvalue

/-- A difference is the sum with the second operand negated (R162). -/
theorem sumIsNaN_negate_iff : SumIsNaN a (negate b) ↔
    NanPattern a ∨ NanPattern b ∨ (InfPattern a ∧ InfPattern b ∧ signBit a = signBit b) := by
  rw [SumIsNaN, nanPattern_negate, infPattern_negate, signBit_negate, ne_eq, Bool.eq_not, not_not]

theorem floatSubRule_floatResult : FloatSubRule a b (floatResult .sub a b) := by
  by_cases h : SumIsNaN a (negate b)
  · exact (if_pos ((sumIsNaN_negate_iff a b).mp h)).mpr (nanResult_of_none (op := .sub) (fadd_of_sumIsNaN h))
  · obtain ⟨r, hr, hvalue⟩ := fadd_of_not_sumIsNaN h
    rw [floatResult_of_some (op := .sub) hr]
    refine (if_neg (mt (sumIsNaN_negate_iff a b).mpr h)).mpr ?_
    simp only [SumValue, infPattern_negate, units_negate, signBit_negate, ← sub_eq_add_neg] at hvalue
    split_ifs at hvalue ⊢ with ha hb hz
    · exact hvalue
    · rw [hvalue]
      exact ⟨(infPattern_negate b).mpr hb, signBit_negate b⟩
    · exact hvalue
    · exact hvalue

/-! ### Products and quotients -/

/-- `fmul` with its tests on bits 30:0. -/
theorem fmul_eq : fmul a b =
    if NanPattern a ∨ NanPattern b then none
    else if InfPattern a ∨ InfPattern b then
      (if magBits a = 0 ∨ magBits b = 0 then none else some (packFloat (signBit a != signBit b) infMag))
    else some (packFloat (signBit a != signBit b) (roundMag (absUnits a * absUnits b) (2 ^ 149))) := by
  simp only [fmul, Bool.or_eq_true, isNaN_iff, isInf_iff, isZero_iff]

theorem not_infPattern_of_zero {w : Word} (h : magBits w = 0) : ¬InfPattern w := by
  rw [InfPattern, h]
  decide

/-- A product has no value for a NaN operand and for an infinity times a zero; no operand is both of these (R165). -/
theorem floatMulRule_floatResult : FloatMulRule a b (floatResult .mul a b) := by
  have hza := not_infPattern_of_zero (w := a)
  have hzb := not_infPattern_of_zero (w := b)
  unfold FloatMulRule
  split_ifs with hnone hinf
  · refine nanResult_of_none (op := .mul) ((fmul_eq a b).trans ?_)
    by_cases hnan : NanPattern a ∨ NanPattern b
    · exact if_pos hnan
    · obtain ⟨hinf, hzero⟩ : (InfPattern a ∨ InfPattern b) ∧ (magBits a = 0 ∨ magBits b = 0) := by tauto
      rw [if_neg hnan, if_pos hinf, if_pos hzero]
  · have hzero : ¬(magBits a = 0 ∨ magBits b = 0) := by tauto
    have hvalue := fmul_eq a b
    rw [if_neg (by tauto), if_pos hinf, if_neg hzero] at hvalue
    rw [floatResult_of_some (op := .mul) hvalue]
    exact ⟨infPattern_packFloat _, signBit_packFloat _ (Nat.le_refl _)⟩
  · have hvalue := fmul_eq a b
    rw [if_neg (by tauto), if_neg hinf] at hvalue
    rw [floatResult_of_some (op := .mul) hvalue]
    exact nearestEven_packFloat _ _ (Nat.two_pow_pos 149)

/-- `fdiv` by a divisor that is not zero, with its tests on bits 30:0. -/
theorem fdiv_eq (hb : magBits b ≠ 0) : fdiv a b =
    if NanPattern a ∨ NanPattern b then none
    else if InfPattern a then
      (if InfPattern b then none else some (packFloat (signBit a != signBit b) infMag))
    else if InfPattern b then some (packFloat (signBit a != signBit b) 0)
    else some (packFloat (signBit a != signBit b) (roundMag (absUnits a * 2 ^ 149) (absUnits b))) := by
  simp only [fdiv, Bool.or_eq_true, isNaN_iff, isInf_iff, isZero_iff, if_neg hb]

/-- A quotient by a divisor that is not zero has no value for a NaN operand and for two infinities (R165). -/
theorem floatDivRule_floatResult (hb : magBits b ≠ 0) : FloatDivRule a b (floatResult .div a b) := by
  have hvalue := fdiv_eq a b hb
  unfold FloatDivRule
  split_ifs with hnone hinfa hinfb
  · refine nanResult_of_none (op := .div) (hvalue.trans ?_)
    by_cases hnan : NanPattern a ∨ NanPattern b
    · exact if_pos hnan
    · obtain ⟨hinfa, hinfb⟩ : InfPattern a ∧ InfPattern b := by tauto
      rw [if_neg hnan, if_pos hinfa, if_pos hinfb]
  · rw [if_neg (by tauto), if_pos hinfa, if_neg (by tauto)] at hvalue
    rw [floatResult_of_some (op := .div) hvalue]
    exact ⟨infPattern_packFloat _, signBit_packFloat _ (Nat.le_refl _)⟩
  · rw [if_neg (by tauto), if_neg hinfa, if_pos hinfb] at hvalue
    rw [floatResult_of_some (op := .div) hvalue]
    exact ⟨magBits_packFloat _ (Nat.zero_le _), signBit_packFloat _ (Nat.zero_le _)⟩
  · rw [if_neg (by tauto), if_neg hinfa, if_neg hinfb] at hvalue
    rw [floatResult_of_some (op := .div) hvalue]
    exact nearestEven_packFloat _ _ (absUnits_pos hb)

end

/-! ## The four meanings -/

section
variable (bb : Mode) (a1 : Addr1) (a2 : Addr2) (s : State)

theorem exec_radd : exec (.radd bb a1 a2) s = orRaise s (operandPair s bb a1 a2) (storeFloat .add s) := rfl

theorem exec_rsub : exec (.rsub bb a1 a2) s = orRaise s (operandPair s bb a1 a2) (storeFloat .sub s) := rfl

theorem exec_rmul : exec (.rmul bb a1 a2) s = orRaise s (operandPair s bb a1 a2) (storeFloat .mul s) := rfl

theorem exec_rdiv : exec (.rdiv bb a1 a2) s = orRaise s (operandPair s bb a1 a2) fun o =>
    if isZero o.w2 then .next (s.raise (.divByZero o.e2)) else storeFloat .div s o := rfl

end

theorem storeFloat_eq (op : FloatOp) (s : State) (o : OperandPair) :
    storeFloat op s o = storeResult s o.e1 (floatResult op o.w1 o.w2) (numericFlags (floatResult op o.w1 o.w2)) := by
  rw [storeFloat, floatFlags_eq]

/-- A float instruction whose operation follows `rule` on its two operand words completes with that result. -/
theorem completes_of_storeFloat {i : Instr} {s : State} {bb : Mode} {a1 : Addr1} {a2 : Addr2} {e1 e2 : Addr}
    {a b : Word} {k : OperandPair → Result} {op : FloatOp} {rule : Word → Word → Word → Prop}
    (h : OperandsAt s bb a1 a2 e1 e2) (ha : s.mem.wordAt e1.toNat = a) (hb : s.mem.wordAt e2.toNat = b)
    (hi : exec i s = orRaise s (operandPair s bb a1 a2) k) (hk : k ⟨e1, e2, a, b⟩ = storeFloat op s ⟨e1, e2, a, b⟩)
    (hrule : rule a b (floatResult op a b)) :
    ∃ t r, exec i s = .next t ∧ rule a b r ∧ CompletedStore s t e1 r (numericFlags r) := by
  subst ha hb
  obtain ⟨t, hexec, hdone⟩ := completedStore_of_storeResult h hi (hk.trans (storeFloat_eq op s _))
  exact ⟨t, _, hexec, hrule, hdone⟩

/-! ## The obligations -/

/-- Settles O36: the operands' rounded sum is stored with its numeric flags. -/
theorem raddStoresTheRoundedSum : Obligations.RaddStoresTheRoundedSum := by
  refine ⟨?completes, ?errors, ?opcode⟩
  case completes =>
    intro bb a1 a2 s e1 e2 h
    exact completes_of_storeFloat h rfl rfl (exec_radd bb a1 a2 s) rfl (floatAddRule_floatResult _ _)
  case errors => exact twoOperandErrors_of_operandPair fun bb a1 a2 s => ⟨_, exec_radd bb a1 a2 s⟩
  case opcode => exact fun bb a1 a2 => opField_packWord 0x21#8 bb.bits a1 a2

/-- Settles O37: a difference is a sum with the second operand negated. -/
theorem rsubStoresTheRoundedDifference : Obligations.RsubStoresTheRoundedDifference := by
  refine ⟨?completes, ?errors, ?opcode⟩
  case completes =>
    intro bb a1 a2 s e1 e2 h
    exact completes_of_storeFloat h rfl rfl (exec_rsub bb a1 a2 s) rfl (floatSubRule_floatResult _ _)
  case errors => exact twoOperandErrors_of_operandPair fun bb a1 a2 s => ⟨_, exec_rsub bb a1 a2 s⟩
  case opcode => exact fun bb a1 a2 => opField_packWord 0x22#8 bb.bits a1 a2

/-- Settles O38: the product of the operands' units is over 2^149 units. -/
theorem rmulStoresTheRoundedProduct : Obligations.RmulStoresTheRoundedProduct := by
  refine ⟨?completes, ?errors, ?opcode⟩
  case completes =>
    intro bb a1 a2 s e1 e2 h
    exact completes_of_storeFloat h rfl rfl (exec_rmul bb a1 a2 s) rfl (floatMulRule_floatResult _ _)
  case errors => exact twoOperandErrors_of_operandPair fun bb a1 a2 s => ⟨_, exec_rmul bb a1 a2 s⟩
  case opcode => exact fun bb a1 a2 => opField_packWord 0x23#8 bb.bits a1 a2

/-- Settles O39: once the operand sequence has completed, the divisor decides between the quotient's store and
DivByZero. -/
theorem rdivStoresTheRoundedQuotient : Obligations.RdivStoresTheRoundedQuotient := by
  refine ⟨?completes, ?errors, ?opcode⟩
  case completes =>
    intro bb a1 a2 s e1 e2 h
    constructor
    · intro hb
      exact completes_of_storeFloat h rfl rfl (exec_rdiv bb a1 a2 s) (if_neg (mt (isZero_iff _).mp hb))
        (floatDivRule_floatResult _ _ hb)
    · intro hb
      rw [exec_rdiv, orRaise_operandPair h]
      exact if_pos ((isZero_iff _).mpr hb)
  case errors => exact twoOperandErrors_of_operandPair fun bb a1 a2 s => ⟨_, exec_rdiv bb a1 a2 s⟩
  case opcode => exact fun bb a1 a2 => opField_packWord 0x24#8 bb.bits a1 a2

end Sys2Proof.Machine
end

section
/-! SUPPORT. The input instructions by the front of the host's queue (43_io.md R180, R181, R184). -/

namespace Sys2Proof.Machine

/-- Every address resolves but one of modes 10 and 11 with an index of 2..7. -/
theorem ea1_of_valid (s : State) {bb : Mode} {a1 : Addr1} (h : bb.resolves → (a1Index a1).toNat < 2) :
    ∃ e1, ea1 s bb a1 = .ok e1 :=
  (effAddr_ok_iff s bb (zextA1 a1) (a1Index a1)).mpr h

section
variable {s : State} {bb : Mode} {a1 : Addr1} (a2 : Addr2) {e1 : Addr}

/-! ## IIN -/

theorem exec_iin_of_invalid (hb : bb.resolves) (hi : 2 ≤ (a1Index a1).toNat) :
    exec (.iin bb a1 a2) s = .next (s.raise (.invalidRegister (a1Index a1))) := by
  rw [exec, execIin, ea1_of_invalid hb hi, orRaise_error]

theorem exec_iin_of_nil (he : ea1 s bb a1 = .ok e1) (hq : s.intIn = []) : exec (.iin bb a1 a2) s = .next s := by
  rw [exec, execIin, he, orRaise_ok, hq]

theorem exec_iin_of_fail {rest : List IntAnswer} (he : ea1 s bb a1 = .ok e1) (hq : s.intIn = .fail :: rest) :
    exec (.iin bb a1 a2) s = .next ((s.withIntIn rest).raise .ioError) := by
  rw [exec, execIin, he, orRaise_ok, hq]

/-- The word stored is the answer's own: its signed reading converted back. -/
theorem exec_iin_of_int {n : Word} {rest : List IntAnswer} (he : ea1 s bb a1 = .ok e1)
    (hq : s.intIn = .int n :: rest) : exec (.iin bb a1 a2) s = storeWord (s.withIntIn rest) e1 n := by
  rw [exec, execIin, he, orRaise_ok, hq]
  exact congrArg (storeWord _ e1) (BitVec.ofInt_toInt (x := n))

/-! ## RIN -/

theorem exec_rin_of_invalid (hb : bb.resolves) (hi : 2 ≤ (a1Index a1).toNat) :
    exec (.rin bb a1 a2) s = .next (s.raise (.invalidRegister (a1Index a1))) := by
  rw [exec, execRin, ea1_of_invalid hb hi, orRaise_error]

theorem exec_rin_of_nil (he : ea1 s bb a1 = .ok e1) (hq : s.floatIn = []) : exec (.rin bb a1 a2) s = .next s := by
  rw [exec, execRin, he, orRaise_ok, hq]

theorem exec_rin_of_fail {rest : List FloatAnswer} (he : ea1 s bb a1 = .ok e1) (hq : s.floatIn = .fail :: rest) :
    exec (.rin bb a1 a2) s = .next ((s.withFloatIn rest).raise .ioError) := by
  rw [exec, execRin, he, orRaise_ok, hq]

theorem exec_rin_of_float {bits : Word} {rest : List FloatAnswer} (he : ea1 s bb a1 = .ok e1)
    (hq : s.floatIn = .float bits :: rest) : exec (.rin bb a1 a2) s = storeWord (s.withFloatIn rest) e1 bits := by
  rw [exec, execRin, he, orRaise_ok, hq]

end

/-- The status of a machine whose fetched instruction waits (40_fetch_decode_dispatch.md R121). -/
theorem status_of_waitsForHost {s : State} {i : Instr} (hr : s.resetDone = true) (hs : s.stop = false)
    (he : s.error = false) (hf : fetchInstr s = .ok i) (hw : waitsForHost i s = true) : s.status = .waiting := by
  have hwaiting : s.waiting = true := by simp [State.waiting, State.terminal, hr, hs, he, hf, hw]
  simp [State.status, hr, hs, he, hwaiting]

/-! ## The obligations -/

/-- Settles O40: by the front of the queue; the answer is consumed before the destination's window is checked. -/
theorem iinStoresTheHostsInteger : Obligations.IinStoresTheHostsInteger := by
  intro bb a1 a2 s
  refine ⟨exec_iin_of_invalid a2, fun e1 he => ⟨?stored, ?outOfBounds, fun _ => exec_iin_of_fail a2 he⟩⟩
  case stored =>
    intro n rest hq hfits
    rw [exec_iin_of_int a2 he hq, storeWord_of_fits _ n hfits]
    exact ⟨_, rfl, storedOnly_of_mem rfl, advanced_of_ip rfl, rfl⟩
  case outOfBounds =>
    intro n rest hq hfits
    rw [exec_iin_of_int a2 he hq, storeWord_of_not_fits _ n hfits]
    rfl

/-- Settles O41: as IIN, with the answer's bits stored as they are. -/
theorem rinStoresTheHostsFloat : Obligations.RinStoresTheHostsFloat := by
  intro bb a1 a2 s
  refine ⟨exec_rin_of_invalid a2, fun e1 he => ⟨?stored, ?outOfBounds, fun _ => exec_rin_of_fail a2 he⟩⟩
  case stored =>
    intro bits rest hq hfits
    rw [exec_rin_of_float a2 he hq, storeWord_of_fits _ bits hfits]
    exact ⟨_, rfl, storedOnly_of_mem rfl, advanced_of_ip rfl, rfl⟩
  case outOfBounds =>
    intro bits rest hq hfits
    rw [exec_rin_of_float a2 he hq, storeWord_of_not_fits _ bits hfits]
    rfl

/-- Settles O42: the destination resolves and the queue is empty, so the instruction answers the same state. -/
theorem unansweredInputWaits : Obligations.UnansweredInputWaits := by
  intro bb a1 a2 s hr hs he hfetch hvalid
  obtain ⟨e1, h1⟩ := ea1_of_valid s hvalid
  rcases hfetch with ⟨hf, hq⟩ | ⟨hf, hq⟩
  · have hw : waitsForHost (.iin bb a1 a2) s = true := by simp [waitsForHost, h1, hq, Except.toBool]
    exact ⟨(step_of_fetchInstr_ok hr hs he hf).trans (exec_iin_of_nil a2 h1 hq), status_of_waitsForHost hr hs he hf hw⟩
  · have hw : waitsForHost (.rin bb a1 a2) s = true := by simp [waitsForHost, h1, hq, Except.toBool]
    exact ⟨(step_of_fetchInstr_ok hr hs he hf).trans (exec_rin_of_nil a2 h1 hq), status_of_waitsForHost hr hs he hf hw⟩

end Sys2Proof.Machine
end

section
/-! SUPPORT. The loader: what a directive writes, a run of word directives, and a program's lines
(70_reset_and_hazards.md R274 to R278). -/

namespace Sys2Proof.Machine

/-! ## Loading keeps memory canonical -/

/-- The loader's state after a directive, ended or not. -/
def Progress.loader : Progress → LoaderState
  | .more st => st
  | .finished st _ => st

theorem writeWord_wf {st st' : LoaderState} {w : Word} (h : st.writeWord w = .ok st') (hwf : st.mem.wf = true) :
    st'.mem.wf = true := by
  rcases writeWord_cases st w with ⟨hfits, hok⟩ | ⟨_, herr⟩
  · obtain rfl := Except.ok.inj (hok.symm.trans h)
    exact Memory.wf_setWord st.mem _ w hwf hfits
  · cases herr.symm.trans h

/-- A directive that is done has written its word, if it is a word directive, and nothing if it is another. -/
theorem applyDirective_cases {st : LoaderState} {d : Directive} {p : Progress} (h : applyDirective st d = .ok p) :
    (∃ w, directiveWord d = some w ∧ st.writeWord w = .ok p.loader) ∨ p.loader.mem = st.mem := by
  cases hd : directiveWord d with
  | some w =>
    rw [applyDirective_of_word hd] at h
    cases hw : st.writeWord w with
    | ok st' =>
      rw [hw] at h
      cases h
      exact .inl ⟨w, rfl, hw⟩
    | error x =>
      rw [hw] at h
      cases h
  | none =>
    refine .inr ?_
    cases d with
    | a v | e v =>
      rw [applyDirective] at h
      split at h <;> cases h
      rfl
    | r bits => cases hd
    | i v | k op bb a1 a2 =>
      rw [directiveWord] at hd
      split at hd
      · cases hd
      · next hrange =>
        rw [applyDirective, if_neg hrange] at h
        cases h
    | s =>
      rw [applyDirective] at h
      split at h <;> cases h
      rfl

theorem applyDirective_wf {st : LoaderState} {d : Directive} {p : Progress} (h : applyDirective st d = .ok p)
    (hwf : st.mem.wf = true) : p.loader.mem.wf = true := by
  rcases applyDirective_cases h with ⟨w, _, hw⟩ | hsame
  · exact writeWord_wf hw hwf
  · rwa [hsame]

/-- Memory as the lines leave it, whether the program ends or a line fails. -/
theorem loadFrom_wf (lines : List (List Char)) (n : Nat) (st : LoaderState) (hwf : st.mem.wf = true) :
    (loadFrom n lines st).1.wf = true := by
  induction lines generalizing n st with
  | nil => exact hwf
  | cons raw rest ih =>
    rw [loadFrom]
    split
    · exact hwf
    · exact ih (n + 1) st hwf
    · split
      · exact hwf
      · next happly => exact ih (n + 1) _ (applyDirective_wf happly hwf)
      · next happly => exact applyDirective_wf happly hwf

/-- Settles O59: the loader starts from the given memory. -/
theorem loadingKeepsMemoryCanonical : Obligations.LoadingKeepsMemoryCanonical :=
  fun lines m hwf => loadFrom_wf lines 1 { mem := m, cur := 0, ent := none } hwf

/-! ## A run of word directives -/

/-- Memory after words stored one byte apart from `a` on. -/
def Memory.setWords (m : Memory) (a : Nat) : List Word → Memory
  | [] => m
  | w :: ws => (m.setWord a w).setWords (a + 1) ws

/-- A run of word directives that ends without a violation has stored their words one byte apart. -/
theorem applyDirectives_of_words {ds : List Directive} {ws : List Word} {st st' : LoaderState}
    (hws : ds.map directiveWord = ws.map some) (h : applyDirectives st ds = .ok st') :
    st' = { st with mem := st.mem.setWords st.cur ws, cur := st.cur + ws.length } := by
  induction ds generalizing ws st with
  | nil =>
    obtain rfl : ws = [] := List.map_eq_nil_iff.mp hws.symm
    exact (Except.ok.inj h).symm
  | cons d ds ih =>
    cases ws with
    | nil => cases hws
    | cons w ws =>
      obtain ⟨hd, hds⟩ := List.cons.inj hws
      rw [applyDirectives, applyDirective_of_word hd] at h
      rcases writeWord_cases st w with ⟨_, hok⟩ | ⟨_, herr⟩
      · rw [hok] at h
        rw [ih hds h, List.length_cons]
        simp [Memory.setWords, Nat.add_assoc, Nat.add_comm 1]
      · rw [herr] at h
        cases h

section
variable (m : Memory) (a : Nat) (ws : List Word)

theorem Memory.byteAt_setWords_of_outside {x : Nat} (hx : x < a ∨ a + ws.length + 2 < x) :
    (m.setWords a ws).byteAt x = m.byteAt x := by
  induction ws generalizing m a with
  | nil => rfl
  | cons w ws ih =>
    rw [List.length_cons] at hx
    rw [Memory.setWords, ih _ _ (by omega), Memory.byteAt_setWord_of_outside m a x w (by omega)]

/-- The later words leave a word its low byte. -/
theorem Memory.byteAt_setWords {j : Nat} {w : Word} (hj : ws[j]? = some w) :
    (m.setWords a ws).byteAt (a + j) = byteOfWord w 0 := by
  induction ws generalizing m a j with
  | nil => cases hj
  | cons v ws ih =>
    cases j with
    | zero =>
      obtain rfl : v = w := Option.some.inj hj
      have hlater := Memory.byteAt_setWords_of_outside (m.setWord a v) (a + 1) ws (.inl (Nat.lt_succ_self a))
      exact hlater.trans (Memory.byteAt_setWord_zero m a v)
    | succ j =>
      have htail := ih (m.setWord a v) (a + 1) hj
      rwa [Nat.add_assoc, Nat.add_comm 1 j] at htail

/-- The last word stands whole. -/
theorem Memory.wordAt_setWords_last {w : Word} (hw : ws.getLast? = some w) :
    (m.setWords a ws).wordAt (a + (ws.length - 1)) = w := by
  induction ws generalizing m a with
  | nil => cases hw
  | cons v ws ih =>
    cases ws with
    | nil =>
      obtain rfl : v = w := Option.some.inj hw
      exact Memory.wordAt_setWord m a v
    | cons v' ws =>
      have htail := ih (m.setWord a v) (a + 1) hw
      rwa [List.length_cons, Nat.add_sub_cancel, Nat.add_assoc, Nat.add_comm 1] at htail

end

/-- Settles O57: a word directive is the loader's word write, and a run of them the words stored one byte apart. -/
theorem loaderStrideIsOneByte : Obligations.LoaderStrideIsOneByte := by
  constructor
  · intro st d w hd
    rw [applyDirective_of_word hd]
    rcases writeWord_cases st w with ⟨hfits, hok⟩ | ⟨hout, herr⟩
    · rw [hok]
      exact ⟨fun _ => ⟨_, rfl⟩, fun hout => absurd hfits (Nat.not_lt.mpr hout)⟩
    · rw [herr]
      exact ⟨fun hfits => absurd hfits (Nat.not_lt.mpr hout), fun _ => rfl⟩
  · intro st st' ds ws hws h
    obtain rfl := applyDirectives_of_words hws h
    exact ⟨rfl, rfl, fun j w _ hj => Memory.byteAt_setWords st.mem st.cur ws hj,
      fun w hw => Memory.wordAt_setWords_last st.mem st.cur ws hw,
      fun x hx => Memory.byteAt_setWords_of_outside st.mem st.cur ws hx⟩

end Sys2Proof.Machine
end

section
/-! SUPPORT. The word of an `r` directive (70_reset_and_hazards.md R275). -/

namespace Sys2Proof.Machine

/-- A line that reads `r` and a decimal literal is the directive of the literal's bits; the name's case is ignored
(R274). -/
theorem parseLine_of_literal {line name t : List Char} {d : Decimal} (hname : name.map Char.toLower = ['r'])
    (hline : lineTokens line = [name, t]) (hd : parseDecimal t = some d) :
    parseLine line = .ok (some (.r (literalBits t d))) := by
  have hbits : parseFloat t = some (literalBits t d) := congrArg (Option.map (literalBits t)) hd
  rw [parseLine, hline]
  dsimp only
  rw [hname]
  dsimp only [oneArg]
  rw [hbits]
  rfl

/-- Equal quotients `p / q` and `p' / q'` compare alike with every magnitude. -/
theorem mul_le_iff_of_cross_eq {p q p' q' : Nat} (hq : 0 < q) (hq' : 0 < q') (heq : p * q' = p' * q) (x : Nat) :
    (x * q ≤ p ↔ x * q' ≤ p') ∧ (p ≤ x * q ↔ p' ≤ x * q') := by
  have hswap : x * q' * q = x * q * q' := Nat.mul_right_comm x q' q
  constructor
  · calc x * q ≤ p ↔ x * q * q' ≤ p * q' := (Nat.mul_le_mul_right_iff hq').symm
      _ ↔ x * q' * q ≤ p' * q := by rw [heq, hswap]
      _ ↔ x * q' ≤ p' := Nat.mul_le_mul_right_iff hq
  · calc p ≤ x * q ↔ p * q' ≤ x * q * q' := (Nat.mul_le_mul_right_iff hq').symm
      _ ↔ p' * q ≤ x * q' * q := by rw [heq, hswap]
      _ ↔ p' ≤ x * q' := Nat.mul_le_mul_right_iff hq

/-- Settles O58: the literal's magnitude is a neighbour of its own quotient, which is equal to `p / q`. -/
theorem literalsAreExactWhereBinary32HasTheValue : Obligations.LiteralsAreExactWhereBinary32HasTheValue := by
  intro t d p q hd hq heq
  have hq' : 0 < 10 ^ (-d.exp).toNat := Nat.pow_pos (by decide)
  obtain ⟨hmax, hnear⟩ := literalMag_neighbour (Config.literalRoundsUp t) (d.digits * 10 ^ d.exp.toNat * 2 ^ 149) hq'
  refine ⟨literalBits t d, ?line, signBit_packFloat d.neg hmax, ?bound, ?neighbour⟩
  case line =>
    intro line hline
    rcases hline with hlower | hupper
    · exact parseLine_of_literal rfl hlower hd
    · exact parseLine_of_literal rfl hupper hd
  case bound =>
    rw [literalBits, magBits_packFloat d.neg hmax]
    exact hmax
  case neighbour =>
    intro u hu
    obtain ⟨hbelow, habove⟩ := hnear u hu
    obtain ⟨hle, hge⟩ := mul_le_iff_of_cross_eq hq hq' heq (magUnits u)
    rw [literalBits, magBits_packFloat d.neg hmax, hle, hge]
    exact ⟨hbelow, habove⟩

end Sys2Proof.Machine
end

section
/-! The codes of ERR (60_exceptions.md section 1), processor creation, Reset and boot (10_state.md section 6,
70_reset_and_hazards.md sections 1 and 2). -/

namespace Sys2Proof.Machine

/-- Settles O31: kind by kind. -/
theorem errorCodes : Obligations.ErrorCodes :=
  ⟨rfl, fun _ => rfl, fun _ => rfl, fun _ => rfl, fun _ => rfl, fun _ => rfl, rfl⟩

/-- A step before the first Reset (log entry 19). -/
theorem step_of_notReset {s : State} (hr : s.resetDone = false) (hs : s.stop = false) (he : s.error = false) :
    step s = .fault .notReset := by
  simp [step, hr, hs, he]

/-- A step that answers keeps the record of the Reset. -/
theorem step_resetDone {s t : State} (h : step s = .next t) : t.resetDone = s.resetDone := by
  obtain ⟨_, _, _, ⟨i, _, hx⟩ | ⟨e, _, rfl⟩⟩ := step_cases h
  · exact (exec_effect hx).resetDone_eq
  · rfl

theorem inv_resetTo {s : State} (entry : Addr) (hwf : s.mem.wf = true) : (s.resetTo entry).Inv :=
  inv_of_not_error hwf rfl rfl rfl

theorem boot_of_entry {lines : List (List Char)} {s : State} {m : Memory} {a : Addr}
    (h : loadLines lines s.mem = (m, .entry a)) : boot lines s = .ready ((s.withMem m).resetTo a) := by
  rw [boot, h]

theorem boot_of_failed {lines : List (List Char)} {s : State} {m : Memory} {e : ParseError}
    (h : loadLines lines s.mem = (m, .failed e)) : boot lines s = .failed e m := by
  rw [boot, h]

/-- Settles O30: Reset clears the run status over whatever memory there is, and boot resets over a loaded one. -/
theorem resetHasTheInvariant : Obligations.ResetHasTheInvariant := by
  refine ⟨fun s entry hwf => inv_resetTo entry hwf, ?boot, inv_of_not_error rfl rfl rfl rfl⟩
  case boot =>
    intro lines s t hwf hready
    have hloaded := loadingKeepsMemoryCanonical lines s.mem hwf
    rcases hload : loadLines lines s.mem with ⟨m, a | e⟩
    · rw [hload] at hloaded
      obtain rfl := BootOutcome.ready.inj ((boot_of_entry hload).symm.trans hready)
      exact inv_resetTo a hloaded
    · cases (boot_of_failed hload).symm.trans hready

/-- Settles O55: Reset's own fields, the defined step after it, and what a step needs and keeps. -/
theorem resetSetsTheInitialState : Obligations.ResetSetsTheInitialState := by
  refine ⟨fun s entry => ?reset, fun s hr hs he => step_of_notReset hr hs he, fun s t hstep => ?step⟩
  case reset =>
    exact ⟨rfl, rfl, rfl, rfl, rfl, rfl, rfl, rfl, fun _ => rfl, rfl,
      everyDefinedStepAnswersANextState (s.resetTo entry) rfl rfl rfl⟩
  case step =>
    obtain ⟨hr, hs, he, _⟩ := step_cases hstep
    exact ⟨hr, hs, he, (step_resetDone hstep).trans hr⟩

/-- Settles O56: Reset overwrites IP and the flags, the two arguments that creation leaves open. -/
theorem creationValuesAreNotObservable : Obligations.CreationValuesAreNotObservable :=
  ⟨fun _ _ _ _ _ => ⟨fun _ => rfl, rfl, rfl, rfl, rfl, rfl, rfl, step_of_notReset rfl rfl rfl⟩,
    fun _ _ _ _ _ _ _ _ => rfl, fun _ _ => rfl, fun _ => rfl⟩

/-- Settles O60: boot goes by how loading ended. -/
theorem bootResetsTheLoadedProcessor : Obligations.BootResetsTheLoadedProcessor := by
  refine fun lines s => ⟨fun m a hload => ?_, fun m e hload => boot_of_failed hload⟩
  exact ⟨_, boot_of_entry hload, rfl, rfl, rfl, rfl, rfl, rfl, rfl⟩

end Sys2Proof.Machine
end
